-- ==== Sys2Proof/Word.lean ====
section
/-!
DEFINITION. The byte, and the index of a general register (spec/00_scope.md R5, spec/10_state.md R11).
-/

namespace Sys2Proof

/-- A byte, bit 7 most significant; every value is unsigned (R5). Registers, memory cells, `pc` and `FL` are bytes. -/
abbrev Byte := BitVec 8

/-- The index of a general register, 0 to 7 (R11). -/
abbrev Reg := Fin 8

end Sys2Proof
end

