-- ==== Sys2Proof/Config.lean ====
section
/-!
DEFINITION. The named parameters of spec/00_scope.md R4 and the constants it fixes.
A machine has one setting of the parameters, and no step changes it. It is held in State (log entry 1), so that
a statement about every state holds for every setting.
-/

namespace Sys2Proof

/-- Which handler opcode byte 0x84 selects (spec/30_encoding.md R55). -/
inductive Op84 where
  | mul
  | st
  deriving DecidableEq, Repr

/-- What an ALU result above 255 does (spec/40_alu.md R71). -/
inductive OvfMode where
  | wrap
  | fault
  deriving DecidableEq, Repr

/-- What `x[0]` to `x[6]` hold after reset (spec/10_state.md R25). -/
inductive GprReset where
  | unwritten
  | zero
  deriving DecidableEq, Repr

/-- The open parameters of R4. -/
structure Params where
  op84 : Op84
  ovfMode : OvfMode
  gprReset : GprReset
  deriving DecidableEq, Repr

/-- The setting that `State.reset` has. OP84 and OVF_MODE are the spec's defaults (R4):
DESIGN CHOICE (unsafe for a machine with another setting, log entries 2 and 3).
DESIGN CHOICE (unsafe, log entry 4): GPR_RESET, which R4 leaves open, is `zero`. -/
def Config.paramsAtReset : Params := { op84 := .mul, ovfMode := .wrap, gprReset := .zero }

/-- SP_INDEX (R4, spec/10_state.md R12). -/
def Config.spIndex : Reg := 7

/-- SP_RESET (R4, R12). -/
def Config.spReset : Byte := 0xF4

/-- PC_RESET (R4, spec/10_state.md R14). -/
def Config.pcReset : Byte := 0x00

end Sys2Proof
end

