-- ==== Sys2Proof/Syntax.lean ====
section
/-!
DEFINITION. The instructions: one constructor per row of spec/opcode_table.json (spec/30_encoding.md R54).
-/

namespace Sys2Proof

/-- An instruction with its operand bytes as they stand in memory (R52). A register operand is the WHOLE operand
byte, legal values 0 to 7 (R58): a larger one is part of the language, and the instruction's meaning raises
RegIndexFault for it: DESIGN CHOICE (safe, log entry 12). `a` is byte 1, `b` or `imm8` is byte 2. -/
inductive Instr where
  | add (a b : Byte)
  | and (a b : Byte)
  | call (a : Byte)
  | cmp (a b : Byte)
  | hlt
  | jeq (a : Byte)
  | jne (a : Byte)
  | jmp (a : Byte)
  | ldi (a imm8 : Byte)
  | mul (a b : Byte)
  | pop (a : Byte)
  | prn (a : Byte)
  | push (a : Byte)
  | ret
  | st (a b : Byte)
  deriving DecidableEq, Repr

end Sys2Proof
end

