-- ==== Sys2Proof/WellFormed.lean ====
section
/-!
DEFINITION. Which instructions are well formed: every register operand byte is 0 to 7 (spec/30_encoding.md R52, R58);
and which can be encoded under a setting of OP84 (R55).
-/

namespace Sys2Proof

/-- The register operand bytes of an instruction, in the order R58 checks them. LDI's second byte is none (R59). -/
def Instr.regOperands : Instr → List Byte
  | .add a b => [a, b]
  | .and a b => [a, b]
  | .call a => [a]
  | .cmp a b => [a, b]
  | .hlt => []
  | .jeq a => [a]
  | .jne a => [a]
  | .jmp a => [a]
  | .ldi a _ => [a]
  | .mul a b => [a, b]
  | .pop a => [a]
  | .prn a => [a]
  | .push a => [a]
  | .ret => []
  | .st a b => [a, b]

/-- An operand byte that R58 accepts as a register index. -/
def legalRegByte (b : Byte) : Bool := decide (b.toNat ≤ 7)

/-- Every register operand byte is a register index. -/
def Instr.wellFormed (i : Instr) : Bool := i.regOperands.all legalRegByte

/-- The instruction has an encoding under this setting of OP84: MUL and ST share byte 0x84 (R55). -/
def Instr.encodable (sel : Op84) : Instr → Bool
  | .mul _ _ => sel == .mul
  | .st _ _ => sel == .st
  | .add _ _ => true
  | .and _ _ => true
  | .call _ => true
  | .cmp _ _ => true
  | .hlt => true
  | .jeq _ => true
  | .jne _ => true
  | .jmp _ => true
  | .ldi _ _ => true
  | .pop _ => true
  | .prn _ => true
  | .push _ => true
  | .ret => true

end Sys2Proof
end

