-- ==== Sys2Proof/Decode.lean ====
section
/-!
DEFINITION. The decoder, total on any bytes, and the encoder (spec/30_encoding.md R50 to R56, R63).
-/

namespace Sys2Proof

/-- Why bytes decode to no instruction. -/
inductive DecodeError where
  /-- The opcode byte is none of the 14 defined values (R56). -/
  | unknownOpcode (op : Byte)
  /-- The bytes end before byte `k` of the instruction (R51); the fetch turns it into an AddressRangeFault. -/
  | missingByte (k : Nat)
  deriving DecidableEq, Repr

/-- Format Z (R52): no operand byte. -/
def decodeZ (i : Instr) (rest : List Byte) : Except DecodeError (Instr × List Byte) := .ok (i, rest)

/-- Format R (R52): one operand byte. -/
def decodeR (mk : Byte → Instr) : List Byte → Except DecodeError (Instr × List Byte)
  | [] => .error (.missingByte 1)
  | a :: rest => .ok (mk a, rest)

/-- Formats RR and RI (R52): two operand bytes. -/
def decodeRR (mk : Byte → Byte → Instr) : List Byte → Except DecodeError (Instr × List Byte)
  | [] => .error (.missingByte 1)
  | [_] => .error (.missingByte 2)
  | a :: b :: rest => .ok (mk a b, rest)

/-- What byte 0x84 selects (R55). -/
def decode84 (sel : Op84) (a b : Byte) : Instr :=
  match sel with
  | .mul => .mul a b
  | .st => .st a b

/-- Dispatch on the full opcode byte (R53, R54), after it the operand bytes (R51). An unknown opcode is reported
from the opcode byte alone (R56). -/
def decodeOpcode (sel : Op84) (op : Byte) (rest : List Byte) : Except DecodeError (Instr × List Byte) :=
  if op = 0xA0 then decodeRR .add rest
  else if op = 0xA8 then decodeRR .and rest
  else if op = 0x50 then decodeR .call rest
  else if op = 0xA7 then decodeRR .cmp rest
  else if op = 0x01 then decodeZ .hlt rest
  else if op = 0x55 then decodeR .jeq rest
  else if op = 0x56 then decodeR .jne rest
  else if op = 0x54 then decodeR .jmp rest
  else if op = 0x82 then decodeRR .ldi rest
  else if op = 0x84 then decodeRR (decode84 sel) rest
  else if op = 0x46 then decodeR .pop rest
  else if op = 0x47 then decodeR .prn rest
  else if op = 0x45 then decodeR .push rest
  else if op = 0x11 then decodeZ .ret rest
  else .error (.unknownOpcode op)

/-- The instruction at the head of the bytes, and the bytes after it. -/
def decode (sel : Op84) : List Byte → Except DecodeError (Instr × List Byte)
  | [] => .error (.missingByte 0)
  | op :: rest => decodeOpcode sel op rest

/-- The bytes of an instruction, lowest address first (R34, R52, R54). -/
def encode : Instr → List Byte
  | .add a b => [0xA0, a, b]
  | .and a b => [0xA8, a, b]
  | .call a => [0x50, a]
  | .cmp a b => [0xA7, a, b]
  | .hlt => [0x01]
  | .jeq a => [0x55, a]
  | .jne a => [0x56, a]
  | .jmp a => [0x54, a]
  | .ldi a imm8 => [0x82, a, imm8]
  | .mul a b => [0x84, a, b]
  | .pop a => [0x46, a]
  | .prn a => [0x47, a]
  | .push a => [0x45, a]
  | .ret => [0x11]
  | .st a b => [0x84, a, b]

/-- Byte `k` of an instruction whose bits are `w`, numbered as spec/opcode_table.json numbers them: byte 0 is bits
7..0; the bits from `nbits` on are 0. -/
def tableByte (nbits w k : Nat) : Byte := BitVec.ofNat 8 ((w % 2 ^ nbits) / 2 ^ (8 * k))

/-- The three bytes (the longest instruction, R50) that `nbits` bits `w` of the table stand for. -/
def tableBytes (nbits w : Nat) : List Byte := [tableByte nbits w 0, tableByte nbits w 1, tableByte nbits w 2]

/-- The instruction the decoder reads from the bits `w`, under the setting of OP84 that `State.reset` has. -/
def decodeTableWord (nbits w : Nat) : Option Instr :=
  match decode Config.paramsAtReset.op84 (tableBytes nbits w) with
  | .ok (i, _) => some i
  | .error _ => none

end Sys2Proof
end

