-- ==== Sys2Proof/Machine/State.lean ====
section
/-!
DEFINITION. The state of the core as plain data (spec/10_state.md R10), the reasons a step can stop, and the state
after reset (R22).
-/

namespace Sys2Proof.Machine

/-- `RUN` (R18). -/
inductive RunState where
  | idle
  | running
  | halted
  | faulted
  deriving DecidableEq, Repr

/-- `HCAUSE` (R19). -/
inductive HaltCause where
  | cancel
  | abort
  deriving DecidableEq, Repr

/-- The faults of spec/60_exceptions.md R141, with the value each writes to FINFO. They are the spec's fatal errors:
raising one is a NEXT state with RUN = faulted (R143), see `State.raise`. -/
inductive CoreFault where
  | unknownOpcode (op : Byte)
  | unsupportedAluOp
  | regIndex (operand : Byte)
  | addressRange (low : Byte)
  | stackBounds (sp : Byte)
  | flagsUnset
  | unwrittenRead (r : Reg)
  | resultOverflow (low : Byte)
  deriving DecidableEq, Repr

/-- The input signals of R27 at one cycle boundary. -/
structure InputPins where
  rst : Bool
  loadWe : Bool
  loadAddr : Byte
  loadData : Byte
  start : Bool
  cancel : Bool
  abort : Bool
  deriving DecidableEq, Repr

/-- No input asserted. -/
def InputPins.quiet : InputPins :=
  { rst := false, loadWe := false, loadAddr := 0, loadData := 0, start := false, cancel := false, abort := false }

/-- Memory (R20): the cells that do not hold 0x00, by rising address. An address that is not listed reads as 0x00,
the reset contents the spec states (R22). -/
abbrev Memory := List Host.Cell

/-- The state of the core. The last two fields are the model's own (log entries 1 and 7). -/
structure State where
  /-- `x[0..7]` (R11, R13); `x[7]` is SP (R12). -/
  regs : Vector Byte 8
  /-- `XV[0..6]` (R25). -/
  xv : Vector Bool 7
  /-- `pc` (R14). -/
  pc : Byte
  /-- `FL` (R15). -/
  fl : Byte
  /-- `FLV` (R16). -/
  flv : Bool
  /-- `mem` (R20). -/
  mem : Memory
  /-- `RUN` (R18). -/
  run : RunState
  /-- `HCAUSE` (R19). -/
  hcause : HaltCause
  /-- `FCAUSE` (R19). -/
  fcause : BitVec 4
  /-- `FINFO` (R19). -/
  finfo : Byte
  /-- The output channel in the most recent cycle: `some v` is out_valid = 1 with out_data = v (R27,
  spec/41_data_movement_io.md R93). -/
  out : Option Byte
  /-- The values presented on the output channel since reset, oldest first (R93). DESIGN CHOICE (safe, log entry 10). -/
  output : List Byte
  /-- The input signals at the coming cycle boundaries, next first; when the list has ended no input is asserted.
  DESIGN CHOICE (unsafe for the run from reset, log entry 7). -/
  inputs : List InputPins
  /-- The setting of the named parameters (spec/00_scope.md R4). DESIGN CHOICE (safe, log entry 1). -/
  params : Params
  deriving DecidableEq, Repr

/-- Reasons a step stops the model with a fault: none. Every fatal error of the spec is a next state, since R143
describes its entry and R18 its leaving by reset; every address is 8 bits wide and so exists (R30).
DEDUCED (safe, log entry 11). -/
inductive Fault where
  deriving DecidableEq, Repr

/-- Reasons the model refuses. -/
inductive Refusal where
  /-- Raised by an arm of `exec` for an instruction without a meaning: no arm does so. Safe. -/
  | notModelled (mnemonic : String)
  /-- Raised by the dead ALU operation MOD with a zero divisor, to which the spec gives no value and which it says a
  model refuses (spec/40_alu.md R83); no instruction reaches it. Safe. -/
  | modZeroDivisor
  deriving DecidableEq, Repr

/-- The reset state of R22 under a setting of the parameters. DESIGN CHOICE (unsafe): the values of x[0..6] (log
entry 4), of FL (log entry 5) and of HCAUSE, FCAUSE and FINFO (log entry 6), which the spec leaves open. -/
def State.resetWith (p : Params) : State :=
  { regs := (Vector.replicate 8 (0 : Byte)).set 7 Config.spReset
    xv := Vector.replicate 7 false
    pc := Config.pcReset
    fl := 0
    flv := false
    mem := []
    run := .idle
    hcause := .cancel
    fcause := 0
    finfo := 0
    out := none
    output := []
    inputs := []
    params := p }

/-- The machine right after reset (R22). -/
def State.reset : State := State.resetWith Config.paramsAtReset

end Sys2Proof.Machine
end

