-- ==== Sys2Proof/Machine/Ops.lean ====
section
/-!
DEFINITION. The named operations over memory, registers and the run state, and taking a fault
(spec/60_exceptions.md R143).
-/

namespace Sys2Proof.Machine

/-- `trunc8` (spec/00_scope.md R5). -/
def trunc8 (n : Nat) : Byte := BitVec.ofNat 8 n

-- Memory

/-- The byte at an address: `MemRead` (spec/20_memory.md R31); 0x00 where nothing is listed. -/
def Memory.read : Memory → Nat → Byte
  | [], _ => 0
  | (b, w) :: m, a => if b = a then w else Memory.read m a

/-- The memory with address `a` no longer listed. -/
def Memory.erase (m : Memory) (a : Nat) : Memory := m.filter (fun c => c.1 != a)

/-- The memory with the cell `(a, v)` put before the first listed address that is not below `a`. -/
def Memory.insert : Memory → Nat → Byte → Memory
  | [], a, v => [(a, v)]
  | (b, w) :: m, a, v => if a ≤ b then (a, v) :: (b, w) :: m else (b, w) :: Memory.insert m a v

/-- `MemWrite` (R32), keeping the canonical form: writing 0x00 lists nothing. -/
def Memory.write (m : Memory) (a : Nat) (v : Byte) : Memory :=
  if v = 0 then m.erase a else (m.erase a).insert a v

/-- The canonical form from address `lo` on: rising addresses below 256, no cell that holds 0x00. -/
def Memory.wfFrom : Nat → Memory → Bool
  | _, [] => true
  | lo, (a, v) :: m => decide (lo ≤ a) && decide (a < 256) && decide (v ≠ 0) && Memory.wfFrom (a + 1) m

/-- The canonical form of a memory. -/
def Memory.wf (m : Memory) : Bool := m.wfFrom 0

/-- `MemRead(addr, 1)` (R31). -/
def State.readMem (s : State) (a : Byte) : Byte := s.mem.read a.toNat

/-- `MemWrite(addr, 1, v)` (R32). -/
def State.writeMem (s : State) (a v : Byte) : State := { s with mem := s.mem.write a.toNat v }

-- Registers

/-- `x[i]` (spec/00_scope.md R6), without the check of R25. -/
def State.reg (s : State) (r : Reg) : Byte := s.regs[r]

/-- SP, an alias of `x[7]` (spec/10_state.md R12). -/
def State.sp (s : State) : Byte := s.reg Config.spIndex

/-- The mark `XV[i]`; `x[7]` is written by reset and has none (R25). -/
def State.marked (s : State) (r : Reg) : Bool :=
  if h : r.val < 7 then s.xv[r.val] else true

/-- Reading `x[i]` raises UnwrittenRegisterRead: only under GPR_RESET = unwritten, and only before its first write
(R25). -/
def State.unwritten (s : State) (r : Reg) : Bool := s.params.gprReset == .unwritten && !s.marked r

/-- The marks after a write of `x[i]` (R25). Under GPR_RESET = zero there are no marks, and XV stays:
DESIGN CHOICE (safe, log entry 14). -/
def State.markWritten (s : State) (r : Reg) : Vector Bool 7 :=
  match s.params.gprReset with
  | .zero => s.xv
  | .unwritten => if h : r.val < 7 then s.xv.set r.val true else s.xv

/-- `x[i] <- v` (spec/00_scope.md R6), with the mark of R25. -/
def State.writeReg (s : State) (r : Reg) (v : Byte) : State :=
  { s with regs := s.regs.set r v, xv := s.markWritten r }

/-- `SP <- v`. -/
def State.setSp (s : State) (v : Byte) : State := s.writeReg Config.spIndex v

/-- `pc <- t`. -/
def State.setPc (s : State) (t : Byte) : State := { s with pc := t }

/-- `FL <- v; FLV <- 1` (spec/40_alu.md R75). -/
def State.setFlags (s : State) (v : Byte) : State := { s with fl := v, flv := true }

/-- `Output(v)` (spec/41_data_movement_io.md R93). -/
def State.emit (s : State) (v : Byte) : State := { s with out := some v, output := s.output ++ [v] }

-- Faults

/-- The cause code of a fault (spec/60_exceptions.md R141). -/
def CoreFault.code : CoreFault → BitVec 4
  | .unknownOpcode _ => 1
  | .unsupportedAluOp => 2
  | .regIndex _ => 3
  | .addressRange _ => 4
  | .stackBounds _ => 5
  | .flagsUnset => 6
  | .unwrittenRead _ => 7
  | .resultOverflow _ => 8

/-- The byte a fault writes to FINFO (R141). -/
def CoreFault.info : CoreFault → Byte
  | .unknownOpcode op => op
  | .unsupportedAluOp => 0
  | .regIndex operand => operand
  | .addressRange low => low
  | .stackBounds sp => sp
  | .flagsUnset => 0
  | .unwrittenRead r => trunc8 r.val
  | .resultOverflow low => low

/-- Taking a fault (R143): RUN, FCAUSE and FINFO are written, nothing else changes, and no handler runs. -/
def State.raise (s : State) (f : CoreFault) : State :=
  { s with run := .faulted, fcause := f.code, finfo := f.info }

/-- Why an instruction does not complete: a fault of the spec, or a refusal of the model. -/
inductive Stop where
  | fault (f : CoreFault)
  | refuse (r : Refusal)
  deriving DecidableEq, Repr

/-- The outcome of an instruction that started in `s`. All checks precede the first write (R143): a check that fails
discards whatever was computed and takes its fault from `s`. -/
def finish (s : State) : Except Stop State → Host.Outcome State Fault Refusal
  | .ok t => .next t
  | .error (.fault f) => .next (s.raise f)
  | .error (.refuse r) => .refused r

-- The program counter and the stack pointer

/-- `pc + k`, never wrapped (spec/20_memory.md R38): a sequential advance, or CALL's return address. -/
def State.pcPlus (s : State) (k : Nat) : Except Stop Byte :=
  if 255 < s.pc.toNat + k then .error (.fault (.addressRange (trunc8 (s.pc.toNat + k))))
  else .ok (trunc8 (s.pc.toNat + k))

/-- The decremented stack pointer, never wrapped (spec/42_stack.md R104). -/
def stackDown (sp : Byte) : Except Stop Byte :=
  if sp = 0x00 then .error (.fault (.stackBounds 0x00)) else .ok (sp - 1)

/-- The incremented stack pointer, never wrapped (R104). -/
def stackUp (sp : Byte) : Except Stop Byte :=
  if sp = 0xFF then .error (.fault (.stackBounds 0xFF)) else .ok (sp + 1)

/-- Decrement-then-store (R100): SP becomes `sp`, and the cell there takes a byte computed after the decrement. -/
def State.pushAt (s : State) (sp : Byte) (value : Byte) : State := (s.setSp sp).writeMem sp value

-- The run state and the cycle boundary

/-- `RUN <- halted; HCAUSE <- c` (spec/44_halt_and_run_loop.md R123, R124). -/
def State.halt (s : State) (c : HaltCause) : State := { s with run := .halted, hcause := c }

/-- The input signals at this cycle boundary (log entry 7). -/
def State.pins (s : State) : InputPins := s.inputs.headD InputPins.quiet

/-- The state a cycle works on: this boundary's input levels are used up, and no value is presented on the output
channel yet (spec/41_data_movement_io.md R93). -/
def State.beginCycle (s : State) : State := { s with inputs := s.inputs.tail, out := none }

/-- Reset in any state (spec/10_state.md R26, spec/70_reset_and_hazards.md R170). The setting of the parameters and the
inputs still to come are no state of the core, and stay: DESIGN CHOICE (safe, log entry 17). -/
def State.applyReset (s : State) : State := { State.resetWith s.params with inputs := s.inputs }

/-- A cycle while RUN = idle: the loader port and `start` (R27). With both in one cycle, both act:
DEDUCED (unsafe, log entry 9). -/
def State.idleCycle (s : State) (p : InputPins) : State :=
  let t := if p.loadWe then s.writeMem p.loadAddr p.loadData else s
  if p.start then { t with run := .running } else t

/-- The bytes stored from address `a` on, as far as the address space goes. -/
def Memory.writeBytes (m : Memory) (a : Nat) : List Byte → Memory
  | [] => m
  | v :: vs => if a < 256 then Memory.writeBytes (m.write a v) (a + 1) vs else m

/-- The state with instruction bytes at `pc`, RUN = running as `start` leaves it, and no input asserted at the next
boundary, so that the next step fetches and runs them (log entry 8). -/
def State.placeInstr (s : State) (bytes : List Byte) : State :=
  { s with mem := s.mem.writeBytes s.pc.toNat bytes, run := .running, inputs := InputPins.quiet :: s.inputs.tail }

end Sys2Proof.Machine
end

