-- ==== Sys2Proof/Machine/Cycle.lean ====
section
/-!
DEFINITION. One cycle of the execution loop up to the handler (spec/44_halt_and_run_loop.md R121): the input signals, the
fetch, and the decode.
-/

namespace Sys2Proof.Machine

/-- What a cycle comes to: a state without any handler, or one handler on a state (R122). -/
inductive CycleAction where
  | settle (t : State)
  | execute (i : Instr) (t : State)
  deriving DecidableEq, Repr

/-- The bytes at `pc`, `pc + 1` and `pc + 2`, those whose address is at most 255 (spec/30_encoding.md R51). -/
def State.fetchWindow (s : State) : List Byte :=
  ((List.range 3).filter (fun k => s.pc.toNat + k ≤ 255)).map (fun k => s.mem.read (s.pc.toNat + k))

/-- The fault of a fetch that gives no instruction (R56, R51). -/
def fetchFault (s : State) : DecodeError → CoreFault
  | .unknownOpcode op => .unknownOpcode op
  | .missingByte k => .addressRange (trunc8 (s.pc.toNat + k))

/-- Fetch and decode (R63). -/
def fetchCycle (s : State) : CycleAction :=
  match decode s.params.op84 s.fetchWindow with
  | .ok (i, _) => .execute i s
  | .error e => .settle (s.raise (fetchFault s e))

/-- A cycle while RUN = running: abort, then cancel, then the instruction (spec/60_exceptions.md R146). -/
def runningCycle (s : State) (p : InputPins) : CycleAction :=
  if p.abort then .settle (s.halt .abort)
  else if p.cancel then .settle (s.halt .cancel)
  else fetchCycle s

/-- One cycle from any state: reset first (spec/10_state.md R26), then by RUN (R18). While RUN is halted or faulted no
other input has an effect and nothing changes (spec/44_halt_and_run_loop.md R127, spec/60_exceptions.md R144). -/
def planCycle (s : State) : CycleAction :=
  if s.pins.rst then .settle s.beginCycle.applyReset
  else
    match s.run with
    | .idle => .settle (s.beginCycle.idleCycle s.pins)
    | .running => runningCycle s.beginCycle s.pins
    | .halted => .settle s.beginCycle
    | .faulted => .settle s.beginCycle

end Sys2Proof.Machine
end

