-- ==== Sys2Proof/Machine/Flags.lean ====
section
/-!
DEFINITION. The flags: what CMP writes (spec/40_alu.md R75) and what JEQ and JNE read (spec/10_state.md R15, R16).
-/

namespace Sys2Proof.Machine

/-- FL after comparing `x` with `y`, unsigned: E, G or L, first operand relative to the second (R75). -/
def compareFlags (x y : Byte) : Byte :=
  if x = y then 0b00000001 else if y.toNat < x.toNat then 0b00000010 else 0b00000100

/-- E = FL[0] (R15). -/
def State.flagE (s : State) : Bool := s.fl.getLsbD 0

/-- G = FL[1] (R15); no instruction reads it. -/
def State.flagG (s : State) : Bool := s.fl.getLsbD 1

/-- L = FL[2] (R15); no instruction reads it. -/
def State.flagL (s : State) : Bool := s.fl.getLsbD 2

/-- Reading E; before the first CMP it raises FlagsUnsetFault (R16). -/
def readE (s : State) : Except Stop Bool :=
  if s.flv then .ok s.flagE else .error (.fault .flagsUnset)

end Sys2Proof.Machine
end

