-- ==== Sys2Proof/Machine/Operands.lean ====
section
/-!
DEFINITION. Register operands (spec/30_encoding.md R58; spec/10_state.md R25). The other operand form, LDI's immediate,
is its byte as it stands (R59).
-/

namespace Sys2Proof.Machine

/-- `reg(b)`: the whole operand byte is the index, never reduced modulo 8 (R58). -/
def regOperand (b : Byte) : Except Stop Reg :=
  if h : b.toNat < 8 then .ok ⟨b.toNat, h⟩ else .error (.fault (.regIndex b))

/-- Reading `x[i]` in an instruction: as a value, an address or a jump target (R25). -/
def readReg (s : State) (r : Reg) : Except Stop Byte :=
  if s.unwritten r then .error (.fault (.unwrittenRead r)) else .ok (s.reg r)

end Sys2Proof.Machine
end

