-- ==== Sys2Proof/Machine/Alu.lean ====
section
/-!
DEFINITION. The ALU with all its operations, the dead ones among them (spec/40_alu.md R70, R71, R76 to R84), and the
instructions ADD, AND, MUL and CMP.
-/

namespace Sys2Proof.Machine

/-- The ALU's operation tags (R76), and any other tag a handler could pass (R77). OR, XOR, NOT, SHL, SHR, MOD and
`unsupported` are passed by no instruction. -/
inductive AluTag where
  | add
  | mul
  | cmp
  | and
  | or
  | xor
  | not
  | shl
  | shr
  | mod
  | unsupported
  deriving DecidableEq, Repr

/-- What the ALU produces (R70): a value for the first register, or flags. -/
inductive AluResult where
  | value (v : Byte)
  | flags (fl : Byte)
  deriving DecidableEq, Repr

/-- A mathematical result by OVF_MODE (R71). -/
def narrow (m : OvfMode) (n : Nat) : Except Stop AluResult :=
  if m = .fault ∧ 255 < n then .error (.fault (.resultOverflow (trunc8 n))) else .ok (.value (trunc8 n))

/-- The registers an operation reads: both, but for NOT, which ignores `b` (R80). -/
def aluOperands (tag : AluTag) (a b : Reg) (s : State) : Except Stop (Byte × Byte) :=
  match tag with
  | .unsupported => .error (.fault .unsupportedAluOp)
  | .not => do
    let x ← readReg s a
    .ok (x, 0)
  | .add | .mul | .cmp | .and | .or | .xor | .shl | .shr | .mod => do
    let x ← readReg s a
    let y ← readReg s b
    .ok (x, y)

/-- The result of an operation on `x[a]` and `x[b]` (R72 to R83). -/
def aluResult (m : OvfMode) (tag : AluTag) (x y : Byte) : Except Stop AluResult :=
  match tag with
  | .add => narrow m (x.toNat + y.toNat)
  | .mul => narrow m (x.toNat * y.toNat)
  | .cmp => .ok (.flags (compareFlags x y))
  | .and => .ok (.value (x &&& y))
  | .or => .ok (.value (x ||| y))
  | .xor => .ok (.value (x ^^^ y))
  | .not => .ok (.value (~~~x))
  | .shl => narrow m (x.toNat <<< y.toNat)
  | .shr => .ok (.value (trunc8 (x.toNat >>> y.toNat)))
  | .mod => if y = 0 then .error (.refuse .modZeroDivisor) else .ok (.value (trunc8 (x.toNat % y.toNat)))
  | .unsupported => .error (.fault .unsupportedAluOp)

/-- Writing back: the destination is `x[a]`, except for a comparison, which writes FL and no register (R70). -/
def aluWriteBack (a : Reg) (s : State) : AluResult → State
  | .value v => s.writeReg a v
  | .flags fl => s.setFlags fl

/-- The ALU on two register indices (R70). It does not touch `pc`: the advance is the handler's. -/
def aluApply (tag : AluTag) (a b : Reg) (s : State) : Except Stop State := do
  let (x, y) ← aluOperands tag a b s
  let r ← aluResult s.params.ovfMode tag x y
  .ok (aluWriteBack a s r)

/-- The ALU invoked on its own, as R78 to R83 say of the dead operations ("if invoked"). No instruction does so.
DEDUCED (unsafe in form, log entry 13). -/
def aluInvoke (tag : AluTag) (a b : Reg) (s : State) : Host.Outcome State Fault Refusal :=
  finish s (aluApply tag a b s)

/-- A handler that runs one ALU operation on its two register operands and advances `pc` by 3. -/
def aluAndAdvance (tag : AluTag) (opA opB : Byte) (s : State) : Except Stop State := do
  let a ← regOperand opA
  let b ← regOperand opB
  let t ← aluApply tag a b s
  let next ← s.pcPlus 3
  .ok (t.setPc next)

/-- ADD (R72). -/
def execAdd (opA opB : Byte) (s : State) : Host.Outcome State Fault Refusal :=
  finish s (aluAndAdvance .add opA opB s)

/-- AND (R73): `pc` does not advance. -/
def execAnd (opA opB : Byte) (s : State) : Host.Outcome State Fault Refusal :=
  finish s do
    let a ← regOperand opA
    let b ← regOperand opB
    aluApply .and a b s

/-- MUL (R74). -/
def execMul (opA opB : Byte) (s : State) : Host.Outcome State Fault Refusal :=
  finish s (aluAndAdvance .mul opA opB s)

/-- CMP (R75). -/
def execCmp (opA opB : Byte) (s : State) : Host.Outcome State Fault Refusal :=
  finish s (aluAndAdvance .cmp opA opB s)

end Sys2Proof.Machine
end

