-- ==== Sys2Proof/Machine/Control.lean ====
section
/-!
DEFINITION. Control transfer: JMP, JEQ, JNE, CALL, RET (spec/43_control_flow.md), and HLT
(spec/44_halt_and_run_loop.md R120).
-/

namespace Sys2Proof.Machine

/-- A transfer to the address in `x[a]` (R116). -/
def jumpTo (a : Reg) (s : State) : Except Stop State := do
  let target ← readReg s a
  .ok (s.setPc target)

/-- A conditional jump: the register is checked as an index first and read only when the jump is taken (R112). -/
def jumpIf (taken : Bool → Bool) (opA : Byte) (s : State) : Except Stop State := do
  let a ← regOperand opA
  let e ← readE s
  if taken e then jumpTo a s
  else do
    let next ← s.pcPlus 2
    .ok (s.setPc next)

/-- JMP (R111). -/
def execJmp (opA : Byte) (s : State) : Host.Outcome State Fault Refusal :=
  finish s do
    let a ← regOperand opA
    jumpTo a s

/-- JEQ (R112). -/
def execJeq (opA : Byte) (s : State) : Host.Outcome State Fault Refusal :=
  finish s (jumpIf (fun e => e) opA s)

/-- JNE (R113). -/
def execJne (opA : Byte) (s : State) : Host.Outcome State Fault Refusal :=
  finish s (jumpIf (fun e => !e) opA s)

/-- CALL (R114). The target is read AFTER the decrement: `CALL R7` jumps to the decremented SP. -/
def execCall (opA : Byte) (s : State) : Host.Outcome State Fault Refusal :=
  finish s do
    let a ← regOperand opA
    let _ ← readReg s a
    let sp ← stackDown s.sp
    let ret ← s.pcPlus 2
    .ok ((s.pushAt sp ret).setPc ((s.setSp sp).reg a))

/-- RET (R115). -/
def execRet (s : State) : Host.Outcome State Fault Refusal :=
  finish s do
    let sp ← stackUp s.sp
    .ok ((s.setSp sp).setPc (s.readMem s.sp))

/-- HLT (R120): nothing changes, RUN and `pc` among it. -/
def execHlt (s : State) : Host.Outcome State Fault Refusal := finish s (.ok s)

end Sys2Proof.Machine
end

