-- ==== Sys2Proof/Machine/Data.lean ====
section
/-!
DEFINITION. Data movement and output: LDI, ST, PRN (spec/41_data_movement_io.md).
-/

namespace Sys2Proof.Machine

/-- LDI (R90). The second operand byte is an immediate and is never checked as a register index. -/
def execLdi (opA imm8 : Byte) (s : State) : Host.Outcome State Fault Refusal :=
  finish s do
    let a ← regOperand opA
    let next ← s.pcPlus 3
    .ok ((s.writeReg a imm8).setPc next)

/-- ST (R91): the address from the SECOND operand, the data from the FIRST; `pc` does not advance. -/
def execSt (opA opB : Byte) (s : State) : Host.Outcome State Fault Refusal :=
  finish s do
    let a ← regOperand opA
    let b ← regOperand opB
    let data ← readReg s a
    let addr ← readReg s b
    .ok (s.writeMem addr data)

/-- PRN (R92). -/
def execPrn (opA : Byte) (s : State) : Host.Outcome State Fault Refusal :=
  finish s do
    let a ← regOperand opA
    let v ← readReg s a
    let next ← s.pcPlus 2
    .ok ((s.emit v).setPc next)

end Sys2Proof.Machine
end

