-- ==== Sys2Proof/Machine/Stack.lean ====
section
/-!
DEFINITION. PUSH and POP (spec/42_stack.md).
-/

namespace Sys2Proof.Machine

/-- PUSH (R101). The value pushed is read AFTER the decrement: `PUSH R7` pushes the decremented SP. -/
def execPush (opA : Byte) (s : State) : Host.Outcome State Fault Refusal :=
  finish s do
    let a ← regOperand opA
    let _ ← readReg s a
    let sp ← stackDown s.sp
    let next ← s.pcPlus 2
    .ok ((s.pushAt sp ((s.setSp sp).reg a)).setPc next)

/-- POP (R102). SP is read AFTER the write of `x[a]`: `POP R7` leaves the popped value plus 1. -/
def execPop (opA : Byte) (s : State) : Host.Outcome State Fault Refusal :=
  finish s do
    let a ← regOperand opA
    let t := s.writeReg a (s.readMem s.sp)
    let sp ← stackUp t.sp
    let next ← s.pcPlus 2
    .ok ((t.setSp sp).setPc next)

end Sys2Proof.Machine
end

