-- ==== Sys2Proof/Machine/Dispatch.lean ====
section
/-!
DEFINITION. The handler of each instruction (spec/30_encoding.md R53, R54).
-/

namespace Sys2Proof.Machine

def exec (i : Instr) (s : State) : Host.Outcome State Fault Refusal :=
  match i with
  | .add a b => Sys2Proof.Machine.execAdd a b s
  | .and a b => Sys2Proof.Machine.execAnd a b s
  | .call a => Sys2Proof.Machine.execCall a s
  | .cmp a b => Sys2Proof.Machine.execCmp a b s
  | .hlt => Sys2Proof.Machine.execHlt s
  | .jeq a => Sys2Proof.Machine.execJeq a s
  | .jne a => Sys2Proof.Machine.execJne a s
  | .jmp a => Sys2Proof.Machine.execJmp a s
  | .ldi a imm8 => Sys2Proof.Machine.execLdi a imm8 s
  | .mul a b => Sys2Proof.Machine.execMul a b s
  | .pop a => Sys2Proof.Machine.execPop a s
  | .prn a => Sys2Proof.Machine.execPrn a s
  | .push a => Sys2Proof.Machine.execPush a s
  | .ret => Sys2Proof.Machine.execRet s
  | .st a b => Sys2Proof.Machine.execSt a b s

end Sys2Proof.Machine
end

