-- ==== Sys2Proof/Machine/Step.lean ====
section
/-!
DEFINITION. One step of the machine is one cycle (spec/00_scope.md R7, spec/44_halt_and_run_loop.md R121, R122).
-/

namespace Sys2Proof.Machine

/-- One cycle. -/
def step (s : State) : Host.Outcome State Fault Refusal :=
  match planCycle s with
  | .settle t => .next t
  | .execute i t => exec i t

/-- The state in which the next step fetches and runs the instruction with bits `w`: DESIGN CHOICE
(log entry 8). -/
def State.withFetchWord (s : State) (nbits w : Nat) : State := s.placeInstr (tableBytes nbits w)

end Sys2Proof.Machine
end

