-- ==== Sys2Proof/Safety.lean ====
section
/-!
DEFINITION. What claims are stated in: the invariant of the machine, the cycles in which an instruction runs, a fault
written out, and what one cycle of each instruction format comes to (spec/30_encoding.md R63, spec/60_exceptions.md R145).
-/

namespace Sys2Proof.Machine

-- The invariant

/-- FL, once written, is E, G or L (spec/10_state.md R15). -/
abbrev State.flagsLegal (s : State) : Prop := s.flv = true → s.fl = 1 ∨ s.fl = 2 ∨ s.fl = 4

/-- The fault causes a faulted machine can report (spec/60_exceptions.md R141): 7 only under GPR_RESET = unwritten, 8 only
under OVF_MODE = fault, and never 2, which nothing reachable raises (spec/40_alu.md R77). -/
abbrev State.causeLegal (s : State) : Prop :=
  s.run = .faulted →
    s.fcause = 1 ∨ s.fcause = 3 ∨ s.fcause = 4 ∨ s.fcause = 5 ∨ s.fcause = 6 ∨
    (s.fcause = 7 ∧ s.params.gprReset = .unwritten) ∨ (s.fcause = 8 ∧ s.params.ovfMode = .fault)

/-- A value stands on the output channel only while RUN = running, and it is the last value recorded
(spec/41_data_movement_io.md R93, spec/44_halt_and_run_loop.md R127). -/
abbrev State.outLegal (s : State) : Prop :=
  s.out ≠ none → s.run = .running ∧ s.output.getLast? = s.out

/-- Under GPR_RESET = zero there are no marks (spec/10_state.md R25). -/
abbrev State.marksLegal (s : State) : Prop :=
  s.params.gprReset = .zero → s.xv = Vector.replicate 7 false

/-- The invariant of the machine. -/
abbrev State.inv (s : State) : Prop :=
  s.mem.wf = true ∧ s.flagsLegal ∧ s.causeLegal ∧ s.outLegal ∧ s.marksLegal

/-- The end of a run (spec/44_halt_and_run_loop.md R127). -/
abbrev State.ended (s : State) : Prop := s.run = .halted ∨ s.run = .faulted

-- The cycles in which an instruction runs

/-- The next cycle fetches: RUN = running, and neither reset nor a stop request is observed
(spec/44_halt_and_run_loop.md R121). -/
abbrev State.ready (s : State) : Prop :=
  s.run = .running ∧ s.pins.rst = false ∧ s.pins.abort = false ∧ s.pins.cancel = false

/-- The byte `k` places above `pc`. -/
abbrev State.byteAt (s : State) (k : Nat) : Byte := s.mem.read (s.pc.toNat + k)

/-- The operand byte that names a register (spec/30_encoding.md R52). -/
def regByte (r : Reg) : Byte := BitVec.ofNat 8 r.val

/-- A state after the fault with this cause code and information (spec/60_exceptions.md R143). -/
def State.faultedBy (s : State) (code : BitVec 4) (info : Byte) : State :=
  { s with run := .faulted, fcause := code, finfo := info }

/-- `pc + k` above 255, the range fault of spec/20_memory.md R38. -/
def State.rangeFault (s : State) (k : Nat) : State := s.faultedBy 4 (trunc8 (s.pc.toNat + k))

/-- A cycle that reads a first operand byte naming a register, then goes on with `body`
(R63, R145: operand fetch, register index). -/
def cycleR (s : State) (body : State → Reg → State) : State :=
  if 255 < s.pc.toNat + 1 then s.beginCycle.rangeFault 1
  else if h : (s.byteAt 1).toNat < 8 then body s.beginCycle ⟨(s.byteAt 1).toNat, h⟩
  else s.beginCycle.faultedBy 3 (s.byteAt 1)

/-- A cycle with a register byte and an immediate byte. -/
def cycleRI (s : State) (body : State → Reg → Byte → State) : State :=
  if 255 < s.pc.toNat + 1 then s.beginCycle.rangeFault 1
  else if 255 < s.pc.toNat + 2 then s.beginCycle.rangeFault 2
  else if h : (s.byteAt 1).toNat < 8 then body s.beginCycle ⟨(s.byteAt 1).toNat, h⟩ (s.byteAt 2)
  else s.beginCycle.faultedBy 3 (s.byteAt 1)

/-- A cycle with two register bytes. -/
def cycleRR (s : State) (body : State → Reg → Reg → State) : State :=
  cycleRI s fun u a opB =>
    if h : opB.toNat < 8 then body u a ⟨opB.toNat, h⟩ else u.faultedBy 3 opB

-- The closed instruction set

/-- The 14 defined opcode values (spec/30_encoding.md R56). -/
def definedOpcodes : List Byte :=
  [0x01, 0x11, 0x45, 0x46, 0x47, 0x50, 0x54, 0x55, 0x56, 0x82, 0x84, 0xA0, 0xA7, 0xA8]

/-- The cause codes that spec/60_exceptions.md R141 lets the handler of an instruction raise (its operand fetch, code 4, is
over by then). -/
def handlerFaultCodes : Instr → List (BitVec 4)
  | .add _ _ => [3, 4, 7, 8]
  | .mul _ _ => [3, 4, 7, 8]
  | .cmp _ _ => [3, 4, 7]
  | .and _ _ => [3, 7]
  | .st _ _ => [3, 7]
  | .ldi _ _ => [3, 4]
  | .prn _ => [3, 4, 7]
  | .push _ => [3, 4, 5, 7]
  | .pop _ => [3, 4, 5]
  | .jmp _ => [3, 7]
  | .jeq _ => [3, 4, 6, 7]
  | .jne _ => [3, 4, 6, 7]
  | .call _ => [3, 4, 5, 7]
  | .ret => [5]
  | .hlt => []

-- Frames

/-- No interface state changes but by a fault: HCAUSE, the inputs to come and the parameters stay, and RUN, FCAUSE and
FINFO stay unless the instruction faulted. -/
abbrev State.statusKept (s t : State) : Prop :=
  t.hcause = s.hcause ∧ t.inputs = s.inputs ∧ t.params = s.params ∧
  (t.run = .faulted ∨ (t.run = s.run ∧ t.fcause = s.fcause ∧ t.finfo = s.finfo))

/-- The output channel and its record stay. -/
abbrev State.outputKept (s t : State) : Prop := t.out = s.out ∧ t.output = s.output

/-- FL and FLV stay. -/
abbrev State.flagsKept (s t : State) : Prop := t.fl = s.fl ∧ t.flv = s.flv

/-- Every byte of memory stays. -/
abbrev State.memKept (s t : State) : Prop := ∀ addr : Nat, t.mem.read addr = s.mem.read addr

/-- Every register but those listed stays, and so does its mark. -/
abbrev State.regsKeptBut (s t : State) (written : List Reg) : Prop :=
  ∀ r : Reg, r ∉ written → t.reg r = s.reg r ∧ t.marked r = s.marked r

end Sys2Proof.Machine
end

