-- ==== Sys2Proof/Certificates/Slice0/Obligations.lean ====
section
/-!
DEFINITION. The statements for the provers. Each docstring names the rules of spec/ it formalises.
-/

open Sys2Proof Sys2Proof.Machine

-- Encoding

/-- One word of each row of the opcode map, written out bit by bit from spec/30_encoding.md R52 and R54. -/
def Obligations.OpcodeWordsDecode : Prop :=
  decode .mul [0b10100000, 2, 3] = .ok (.add 2 3, []) ∧
  decode .mul [0b10101000, 2, 3] = .ok (.and 2 3, []) ∧
  decode .mul [0b01010000, 5] = .ok (.call 5, []) ∧
  decode .mul [0b10100111, 2, 3] = .ok (.cmp 2 3, []) ∧
  decode .mul [0b00000001] = .ok (.hlt, []) ∧
  decode .mul [0b01010101, 5] = .ok (.jeq 5, []) ∧
  decode .mul [0b01010110, 5] = .ok (.jne 5, []) ∧
  decode .mul [0b01010100, 5] = .ok (.jmp 5, []) ∧
  decode .mul [0b10000010, 2, 0xFF] = .ok (.ldi 2 0xFF, []) ∧
  decode .mul [0b10000100, 2, 3] = .ok (.mul 2 3, []) ∧
  decode .mul [0b01000110, 5] = .ok (.pop 5, []) ∧
  decode .mul [0b01000111, 5] = .ok (.prn 5, []) ∧
  decode .mul [0b01000101, 5] = .ok (.push 5, []) ∧
  decode .mul [0b00010001] = .ok (.ret, []) ∧
  decode .st [0b10000100, 2, 3] = .ok (.st 2 3, [])

/-- Every instruction that has an encoding decodes back from it, whatever bytes follow, with every operand byte at every
value (R50 to R55). -/
def Obligations.DecodeOfEncodeIsTheInstruction : Prop :=
  ∀ (sel : Op84) (i : Instr) (rest : List Byte), i.encodable sel = true →
    decode sel (encode i ++ rest) = .ok (i, rest)

/-- Whatever decodes is the encoding of the instruction it decodes to: no two byte sequences mean one instruction, and the
set of R54 is closed (R53, R54). -/
def Obligations.DecodedBytesAreTheEncoding : Prop :=
  ∀ (sel : Op84) (bytes rest : List Byte) (i : Instr), decode sel bytes = .ok (i, rest) →
    bytes = encode i ++ rest ∧ i.encodable sel = true

/-- R55: byte 0x84 is MUL or ST by the parameter OP84, the other one is unreachable, neither has another byte, and the
default is MUL. -/
def Obligations.Byte84SelectsMulOrSt : Prop :=
  (∀ (a b : Byte) (rest : List Byte),
    decode .mul (0x84 :: a :: b :: rest) = .ok (.mul a b, rest) ∧
    decode .st (0x84 :: a :: b :: rest) = .ok (.st a b, rest)) ∧
  (∀ (bytes rest : List Byte) (a b : Byte),
    decode .mul bytes ≠ .ok (.st a b, rest) ∧ decode .st bytes ≠ .ok (.mul a b, rest)) ∧
  (∀ (sel : Op84) (op a b : Byte) (bytes rest : List Byte),
    decode sel (op :: bytes) = .ok (.mul a b, rest) ∨ decode sel (op :: bytes) = .ok (.st a b, rest) → op = 0x84) ∧
  State.reset.params.op84 = .mul

/-- R56: a cycle that fetches a byte outside the 14 defined ones raises UnknownOpcode with that byte, wherever `pc` is
(so before any operand fetch), and a cycle that fetches a defined one never does. -/
def Obligations.UnknownOpcodeFaults : Prop :=
  (∀ s : State, s.ready → s.byteAt 0 ∉ definedOpcodes →
    step s = .next (s.beginCycle.faultedBy 1 (s.byteAt 0))) ∧
  (∀ s t : State, s.ready → s.byteAt 0 ∈ definedOpcodes → step s = .next t → t.run = .faulted → t.fcause ≠ 1)

/-- R58: the first register operand byte above 7 is reported as RegIndexFault, whatever the instruction would have done
with the register; a legal byte is the index itself; and a well-formed instruction never raises RegIndexFault. -/
def Obligations.RegisterOperandsAreChecked : Prop :=
  (∀ (i : Instr) (s : State) (b : Byte), i.regOperands.find? (fun x => decide (7 < x.toNat)) = some b →
    exec i s = .next (s.faultedBy 3 b)) ∧
  (∀ r : Reg, regOperand (regByte r) = .ok r ∧ (regByte r).toNat = r.val) ∧
  (∀ (i : Instr) (s t : State), i.wellFormed = true → s.run = .running → exec i s = .next t → t.run = .faulted →
    t.fcause ≠ 3)

-- The machine

/-- A step runs the decoded instruction, on the state whose input levels of this boundary are used up and whose output
channel presents nothing yet: said of the bytes the fetch offers the decoder, and of the encoding standing at `pc`
(spec/44_halt_and_run_loop.md R121). -/
def Obligations.StepRunsDecodedInstruction : Prop :=
  (∀ (s : State) (i : Instr) (rest : List Byte), s.ready → decode s.params.op84 s.fetchWindow = .ok (i, rest) →
    step s = exec i { s with inputs := s.inputs.tail, out := none }) ∧
  (∀ (s : State) (i : Instr), s.ready → i.encodable s.params.op84 = true →
    (∀ k, (h : k < (encode i).length) → s.pc.toNat + k ≤ 255 ∧ s.byteAt k = (encode i)[k]) →
    step s = exec i { s with inputs := s.inputs.tail, out := none })

/-- R22: the values the spec gives for reset, under every setting of the parameters, and the entry point 0. (R22 gives no
value to FL, HCAUSE, FCAUSE and FINFO, and to x[0..6] what R25 says of the two settings; nothing else is said.) -/
def Obligations.ResetGivesR22 : Prop :=
  ∀ p : Params,
    (State.resetWith p).reg 7 = 0xF4 ∧ (State.resetWith p).pc = 0x00 ∧ (State.resetWith p).flv = false ∧
    (∀ addr : Nat, (State.resetWith p).mem.read addr = 0x00) ∧ (State.resetWith p).run = .idle ∧
    (State.resetWith p).out = none ∧
    (p.gprReset = .unwritten → ∀ r : Reg, r ≠ 7 → (State.resetWith p).marked r = false) ∧
    (p.gprReset = .zero → ∀ r : Reg, r ≠ 7 → (State.resetWith p).reg r = 0x00) ∧
    (∀ q : InputPins, q.rst = false → q.loadWe = false → q.start = true →
      ∃ t, step { State.resetWith p with inputs := [q] } = .next t ∧ t.run = .running ∧ t.pc = 0x00 ∧
        t.byteAt 0 = (State.resetWith p).mem.read 0)

/-- R170, R26: reset in any state, whatever other input is asserted with it. -/
def Obligations.ResetWorksFromAnyState : Prop :=
  ∀ s : State, s.pins.rst = true →
    ∃ t, step s = .next t ∧ t.reg 7 = 0xF4 ∧ t.pc = 0x00 ∧ (∀ addr : Nat, t.mem.read addr = 0x00) ∧ t.flv = false ∧
      t.run = .idle ∧ t.out = none ∧
      (s.params.gprReset = .unwritten → ∀ r : Reg, r ≠ 7 → t.marked r = false) ∧
      (s.params.gprReset = .zero → ∀ r : Reg, r ≠ 7 → t.reg r = 0x00)

/-- R146, R123: at a boundary while RUN = running, abort wins over cancel, and either over the instruction, of which
nothing is fetched; with neither, the instruction at `pc` runs and the machine does not halt. -/
def Obligations.StopRequestsPrecedeTheInstruction : Prop :=
  ∀ s : State, s.run = .running → s.pins.rst = false →
    (s.pins.abort = true → step s = .next { s.beginCycle with run := .halted, hcause := .abort }) ∧
    (s.pins.abort = false → s.pins.cancel = true →
      step s = .next { s.beginCycle with run := .halted, hcause := .cancel }) ∧
    (s.pins.abort = false → s.pins.cancel = false →
      (∀ i rest, decode s.params.op84 s.fetchWindow = .ok (i, rest) → step s = exec i s.beginCycle) ∧
      ∀ t, step s = .next t → t.run ≠ .halted ∧ t.hcause = s.hcause)

/-- R144, and the same of halted (R127): without reset nothing happens, whatever the other inputs are; the output channel
presents nothing. -/
def Obligations.FaultedAndHaltedAreTerminal : Prop :=
  ∀ s : State, s.run = .faulted ∨ s.run = .halted → s.pins.rst = false →
    step s = .next { s with inputs := s.inputs.tail, out := none }

/-- The loader port and `start` while RUN = idle (R27, R45, R18); `cancel` and `abort` have no effect there (R124). -/
def Obligations.IdleLoadsAndStarts : Prop :=
  ∀ s : State, s.run = .idle → s.pins.rst = false →
    ∃ t, step s = .next t ∧
      t.run = (if s.pins.start = true then .running else .idle) ∧
      (∀ addr : Nat, t.mem.read addr =
        if s.pins.loadWe = true ∧ addr = s.pins.loadAddr.toNat then s.pins.loadData else s.mem.read addr) ∧
      t = { s with inputs := s.inputs.tail, out := none, run := t.run, mem := t.mem }

/-- The loader port and `start` are dead outside idle (R27, R40): two input levels that agree in `rst`, `cancel` and
`abort` give the same step. -/
def Obligations.LoaderIsDeadOutsideIdle : Prop :=
  ∀ (s : State) (p q : InputPins) (later : List InputPins), s.run ≠ .idle →
    p.rst = q.rst → p.cancel = q.cancel → p.abort = q.abort →
    step { s with inputs := p :: later } = step { s with inputs := q :: later }

/-- R18: the transitions of RUN, and no others, with the event of each; in halted and faulted no instruction executes. -/
def Obligations.RunChangesOnlyAsR18Says : Prop :=
  State.reset.run = .idle ∧
  ∀ s t : State, step s = .next t →
    (s.pins.rst = true → t.run = .idle) ∧
    (s.pins.rst = false →
      (s.run = .idle → s.pins.start = true → t.run = .running) ∧
      (s.run = .idle → s.pins.start = false → t.run = .idle) ∧
      (s.run = .running → s.pins.abort = true ∨ s.pins.cancel = true → t.run = .halted) ∧
      (s.run = .running → s.pins.abort = false → s.pins.cancel = false → t.run = .running ∨ t.run = .faulted) ∧
      (s.run = .halted ∨ s.run = .faulted → t = { s with inputs := s.inputs.tail, out := none }))

/-- No step and no handler ends in a fault or a refusal of the model: every instruction runs on every operand, in every
state and setting, and a fatal error is a next state (R143). -/
def Obligations.EveryStepAnswersNext : Prop :=
  (∀ s : State, ∃ t, step s = .next t) ∧ (∀ (i : Instr) (s : State), ∃ t, exec i s = .next t)

/-- Every step keeps the invariant: memory canonical, FL one of E, G, L once written (R15), a legal cause while faulted
(R141), a value on the output channel only while running (R127), no marks under GPR_RESET = zero (R25). -/
def Obligations.InvariantIsKept : Prop :=
  ∀ s t : State, s.inv → step s = .next t → t.inv

/-- The invariant holds after reset, under every setting of the parameters. -/
def Obligations.InvariantHoldsAtReset : Prop :=
  State.reset.inv ∧ ∀ p : Params, (State.resetWith p).inv

/-- R143: a cycle that ends faulted wrote RUN, and the code and the information of one fault to FCAUSE and FINFO, and
changed nothing else; it presents no output. -/
def Obligations.FaultsArePrecise : Prop :=
  ∀ s t : State, s.run = .running → step s = .next t → t.run = .faulted →
    ∃ f : CoreFault,
      t = { s with inputs := s.inputs.tail, out := none, run := .faulted, fcause := f.code, finfo := f.info }

/-- The faults each handler can raise (R141), code 7 only under GPR_RESET = unwritten and 8 only under OVF_MODE = fault:
HLT raises nothing, RET only code 5. -/
def Obligations.HandlersRaiseOnlyTheirFaults : Prop :=
  ∀ (i : Instr) (s t : State), s.run = .running → exec i s = .next t → t.run = .faulted →
    t.fcause ∈ handlerFaultCodes i ∧
    (t.fcause = 7 → s.params.gprReset = .unwritten) ∧ (t.fcause = 8 → s.params.ovfMode = .fault)

/-- The next `pc` of a completed instruction (R110, and R114 for a CALL through R7): an advance never wraps. -/
def Obligations.NextPcIsAsTheTableSays : Prop :=
  ∀ (a b : Reg) (x y : Byte) (s t : State), s.run = .running → t.run = .running →
    (exec (.add x y) s = .next t → t.pc.toNat = s.pc.toNat + 3) ∧
    (exec (.and x y) s = .next t → t.pc = s.pc) ∧
    (exec (.call (regByte a)) s = .next t → t.pc = if a = 7 then s.reg 7 - 1 else s.reg a) ∧
    (exec (.cmp x y) s = .next t → t.pc.toNat = s.pc.toNat + 3) ∧
    (exec .hlt s = .next t → t.pc = s.pc) ∧
    (exec (.jeq (regByte a)) s = .next t →
      if s.fl.getLsbD 0 = true then t.pc = s.reg a else t.pc.toNat = s.pc.toNat + 2) ∧
    (exec (.jne (regByte a)) s = .next t →
      if s.fl.getLsbD 0 = false then t.pc = s.reg a else t.pc.toNat = s.pc.toNat + 2) ∧
    (exec (.jmp (regByte a)) s = .next t → t.pc = s.reg a) ∧
    (exec (.ldi x y) s = .next t → t.pc.toNat = s.pc.toNat + 3) ∧
    (exec (.mul x y) s = .next t → t.pc.toNat = s.pc.toNat + 3) ∧
    (exec (.pop x) s = .next t → t.pc.toNat = s.pc.toNat + 2) ∧
    (exec (.prn x) s = .next t → t.pc.toNat = s.pc.toNat + 2) ∧
    (exec (.push x) s = .next t → t.pc.toNat = s.pc.toNat + 2) ∧
    (exec .ret s = .next t → t.pc = s.mem.read (s.reg 7).toNat) ∧
    (exec (.st (regByte a) (regByte b)) s = .next t → t.pc = s.pc)

/-- R15: only CMP writes FL, always with E, G or L alone, so FL never holds another value once written; JEQ and JNE read
bit 0 of it and no instruction reads anything else of it (another FL that agrees in what is read changes nothing but FL
itself). -/
def Obligations.FlagsAreWrittenByCmpAndReadByJumps : Prop :=
  (∀ (i : Instr) (s t : State), exec i s = .next t → t.fl ≠ s.fl ∨ t.flv ≠ s.flv → ∃ a b, i = .cmp a b) ∧
  (∀ (a b : Byte) (s t : State), s.run = .running → exec (.cmp a b) s = .next t → t.run = .running →
    t.fl = 0b00000001 ∨ t.fl = 0b00000010 ∨ t.fl = 0b00000100) ∧
  (∀ (i : Instr) (s t : State), exec i s = .next t → s.flagsLegal → t.flagsLegal) ∧
  (∀ (i : Instr) (s t : State) (v : Byte),
    ((∃ a, i = .jeq a ∨ i = .jne a) → v.getLsbD 0 = s.fl.getLsbD 0) → exec i s = .next t →
    ∃ w, exec i { s with fl := v } = .next { t with fl := w } ∧ (w = v ∨ w = t.fl))

/-- R16: FLV is 0 from reset until the first CMP completes and is cleared by reset alone; while it is 0, JEQ and JNE raise
FlagsUnsetFault and nothing depends on the contents of FL. -/
def Obligations.FlagsAreUnsetUntilTheFirstCmp : Prop :=
  (∀ s t : State, step s = .next t → s.pins.rst = true → t.flv = false) ∧
  (∀ s t : State, step s = .next t → s.pins.rst = false → s.flv = true → t.flv = true) ∧
  (∀ s t : State, step s = .next t → s.flv = false → t.flv = true →
    s.ready ∧ s.byteAt 0 = 0xA7 ∧ t.run = .running) ∧
  (∀ (s t : State) (a b : Byte), s.run = .running → exec (.cmp a b) s = .next t → t.run = .running →
    t.flv = true) ∧
  (∀ (s : State) (a : Reg), s.flv = false →
    exec (.jeq (regByte a)) s = .next (s.faultedBy 6 0) ∧ exec (.jne (regByte a)) s = .next (s.faultedBy 6 0)) ∧
  (∀ (i : Instr) (s t : State) (v : Byte), s.flv = false → exec i s = .next t →
    ∃ w, exec i { s with fl := v } = .next { t with fl := w } ∧ (t.flv = true → w = t.fl))

/-- HCAUSE, FCAUSE and FINFO are visible to no instruction (R19): other contents change nothing but themselves, and a
fault writes the same cause. -/
def Obligations.StatusRegistersAreInvisible : Prop :=
  ∀ (i : Instr) (s t : State) (h : HaltCause) (c : BitVec 4) (f : Byte), exec i s = .next t →
    ∃ c' f', exec i { s with hcause := h, fcause := c, finfo := f } =
        .next { t with hcause := h, fcause := c', finfo := f' } ∧
      (s.run = .running → t.run = .faulted → c' = t.fcause ∧ f' = t.finfo) ∧
      (s.run = .running → t.run = .running → c' = c ∧ f' = f)

/-- Under GPR_RESET = unwritten what an unwritten register holds is never observed (R25): other contents change nothing
until the register is written, and then nothing at all. -/
def Obligations.UnwrittenRegistersAreUnobserved : Prop :=
  ∀ (i : Instr) (s t : State) (r : Reg) (v : Byte), s.unwritten r = true → exec i s = .next t →
    ∃ w, exec i { s with regs := s.regs.set r v } = .next { t with regs := t.regs.set r w } ∧
      (t.unwritten r = true ∨ w = t.reg r)

/-- The parameters are fixed for the machine (R4): no step changes their setting. -/
def Obligations.ParametersNeverChange : Prop :=
  ∀ s t : State, step s = .next t → t.params = s.params

-- Frames

/-- ADD, AND, MUL (R72, R73, R74) and LDI (R90) write their first register and nothing else but `pc`, and AND not even
`pc`. -/
def Obligations.RegisterInstructionsFrame : Prop :=
  ∀ (a : Reg) (y : Byte) (s t : State),
    exec (.add (regByte a) y) s = .next t ∨ exec (.and (regByte a) y) s = .next t ∨
      exec (.mul (regByte a) y) s = .next t ∨ exec (.ldi (regByte a) y) s = .next t →
    s.regsKeptBut t [a] ∧ s.flagsKept t ∧ s.memKept t ∧ s.outputKept t ∧ s.statusKept t ∧
    (exec (.and (regByte a) y) s = .next t → t.pc = s.pc)

/-- CMP (R75) writes no register and no memory, only FL, FLV and `pc`. -/
def Obligations.CompareFrame : Prop :=
  ∀ (x y : Byte) (s t : State), exec (.cmp x y) s = .next t →
    s.regsKeptBut t [] ∧ s.memKept t ∧ s.outputKept t ∧ s.statusKept t

/-- JMP, JEQ, JNE (R111, R112, R113) write only `pc`, HLT (R120) nothing, not even `pc`, and PRN (R92) only `pc` and the
output. -/
def Obligations.JumpHaltAndOutputFrame : Prop :=
  ∀ (x : Byte) (s t : State),
    (exec (.jmp x) s = .next t ∨ exec (.jeq x) s = .next t ∨ exec (.jne x) s = .next t ∨ exec .hlt s = .next t →
      s.regsKeptBut t [] ∧ s.flagsKept t ∧ s.memKept t ∧ s.outputKept t ∧ s.statusKept t) ∧
    (exec .hlt s = .next t → t = s) ∧
    (exec (.prn x) s = .next t → s.regsKeptBut t [] ∧ s.flagsKept t ∧ s.memKept t ∧ s.statusKept t)

/-- POP (R102) writes its register and SP, RET (R115) SP; neither writes memory. -/
def Obligations.PopAndRetFrame : Prop :=
  ∀ (a : Reg) (s t : State),
    (exec (.pop (regByte a)) s = .next t →
      s.regsKeptBut t [a, 7] ∧ s.flagsKept t ∧ s.memKept t ∧ s.outputKept t ∧ s.statusKept t) ∧
    (exec .ret s = .next t →
      s.regsKeptBut t [7] ∧ s.flagsKept t ∧ s.memKept t ∧ s.outputKept t ∧ s.statusKept t)

/-- The storing instructions: ST (R91) writes no register, not `pc`, and only the cell at `x[b]`; PUSH (R101) and CALL
(R114) write SP, `pc` and only the cell at the decremented SP. -/
def Obligations.StoringInstructionsFrame : Prop :=
  ∀ (x : Byte) (b : Reg) (s t : State),
    (exec (.st x (regByte b)) s = .next t →
      t.pc = s.pc ∧ s.regsKeptBut t [] ∧ s.flagsKept t ∧ s.outputKept t ∧ s.statusKept t ∧
      ∀ addr : Nat, addr ≠ (s.reg b).toNat → t.mem.read addr = s.mem.read addr) ∧
    (exec (.push x) s = .next t ∨ exec (.call x) s = .next t →
      s.regsKeptBut t [7] ∧ s.flagsKept t ∧ s.outputKept t ∧ s.statusKept t ∧
      ∀ addr : Nat, addr ≠ (s.sp - 1).toNat → t.mem.read addr = s.mem.read addr)

-- What a cycle of each instruction does

/-- R72, whole: a cycle with opcode 0xA0 takes the first of its faults in the order of R145, or writes the sum to the first
register (its low byte, or ResultOverflow under OVF_MODE = fault) and advances `pc` by 3. -/
def Obligations.AddCycle : Prop :=
  ∀ s : State, s.ready → s.byteAt 0 = 0xA0 →
    step s = .next (cycleRR s fun u a b =>
      if u.unwritten a = true then u.faultedBy 7 (regByte a)
      else if u.unwritten b = true then u.faultedBy 7 (regByte b)
      else if u.params.ovfMode = .fault ∧ 255 < (u.reg a).toNat + (u.reg b).toNat then
        u.faultedBy 8 (trunc8 ((u.reg a).toNat + (u.reg b).toNat))
      else if 255 < u.pc.toNat + 3 then u.rangeFault 3
      else { u with
        regs := u.regs.set a (trunc8 ((u.reg a).toNat + (u.reg b).toNat))
        xv := u.markWritten a
        pc := trunc8 (u.pc.toNat + 3) })

/-- R73, whole: AND does not advance `pc`, so it spins: after its first cycle nothing changes but the inputs used up,
however many cycles go by without reset or a stop request. -/
def Obligations.AndCycle : Prop :=
  (∀ s : State, s.ready → s.byteAt 0 = 0xA8 →
    step s = .next (cycleRR s fun u a b =>
      if u.unwritten a = true then u.faultedBy 7 (regByte a)
      else if u.unwritten b = true then u.faultedBy 7 (regByte b)
      else { u with
        regs := u.regs.set a (u.reg a &&& u.reg b)
        xv := u.markWritten a })) ∧
  (∀ (n : Nat) (s t : State), s.run = .running → s.byteAt 0 = 0xA8 →
    (∀ p ∈ s.inputs, p.rst = false ∧ p.abort = false ∧ p.cancel = false) →
    step s = .next t → t.run = .running →
    core.run (n + 1) s = .next { t with inputs := s.inputs.drop (n + 1) })

/-- R74, whole: byte 0x84 under OP84 = MUL takes the first of its faults, or writes the product to the first register (its
low byte, or ResultOverflow under OVF_MODE = fault) and advances `pc` by 3. -/
def Obligations.MulCycle : Prop :=
  ∀ s : State, s.ready → s.params.op84 = .mul → s.byteAt 0 = 0x84 →
    step s = .next (cycleRR s fun u a b =>
      if u.unwritten a = true then u.faultedBy 7 (regByte a)
      else if u.unwritten b = true then u.faultedBy 7 (regByte b)
      else if u.params.ovfMode = .fault ∧ 255 < (u.reg a).toNat * (u.reg b).toNat then
        u.faultedBy 8 (trunc8 ((u.reg a).toNat * (u.reg b).toNat))
      else if 255 < u.pc.toNat + 3 then u.rangeFault 3
      else { u with
        regs := u.regs.set a (trunc8 ((u.reg a).toNat * (u.reg b).toNat))
        xv := u.markWritten a
        pc := trunc8 (u.pc.toNat + 3) })

/-- R75, whole: FL is E, G or L by the unsigned comparison of the first operand with the second, FLV is set, `pc` advances
by 3, and no register is written. -/
def Obligations.CmpCycle : Prop :=
  ∀ s : State, s.ready → s.byteAt 0 = 0xA7 →
    step s = .next (cycleRR s fun u a b =>
      if u.unwritten a = true then u.faultedBy 7 (regByte a)
      else if u.unwritten b = true then u.faultedBy 7 (regByte b)
      else if 255 < u.pc.toNat + 3 then u.rangeFault 3
      else { u with
        fl := if (u.reg a).toNat = (u.reg b).toNat then 0b00000001
          else if (u.reg b).toNat < (u.reg a).toNat then 0b00000010 else 0b00000100
        flv := true
        pc := trunc8 (u.pc.toNat + 3) })

/-- R90, whole: the second operand byte goes to the register as it stands and is never checked as a register index; no
register is read. -/
def Obligations.LdiCycle : Prop :=
  ∀ s : State, s.ready → s.byteAt 0 = 0x82 →
    step s = .next (cycleRI s fun u a imm8 =>
      if 255 < u.pc.toNat + 3 then u.rangeFault 3
      else { u with
        regs := u.regs.set a imm8
        xv := u.markWritten a
        pc := trunc8 (u.pc.toNat + 3) })

/-- R91, whole: byte 0x84 under OP84 = ST; the address is the second register, the data the first, `pc` stays, so it
spins: unless it stored to one of its own three bytes, nothing changes after its first cycle but the inputs used up,
however many cycles go by without reset or a stop request. -/
def Obligations.StCycle : Prop :=
  (∀ s : State, s.ready → s.params.op84 = .st → s.byteAt 0 = 0x84 →
    step s = .next (cycleRR s fun u a b =>
      if u.unwritten a = true then u.faultedBy 7 (regByte a)
      else if u.unwritten b = true then u.faultedBy 7 (regByte b)
      else { u with mem := u.mem.write (u.reg b).toNat (u.reg a) })) ∧
  (∀ (n : Nat) (b : Reg) (s t : State), s.run = .running → s.params.op84 = .st → s.byteAt 0 = 0x84 →
    s.byteAt 2 = regByte b → (s.reg b).toNat < s.pc.toNat ∨ s.pc.toNat + 2 < (s.reg b).toNat →
    (∀ p ∈ s.inputs, p.rst = false ∧ p.abort = false ∧ p.cancel = false) →
    step s = .next t → t.run = .running →
    core.run (n + 1) s = .next { t with inputs := s.inputs.drop (n + 1) })

/-- R92, whole: PRN presents the register's value once and advances `pc` by 2; no register and no memory is written. -/
def Obligations.PrnCycle : Prop :=
  ∀ s : State, s.ready → s.byteAt 0 = 0x47 →
    step s = .next (cycleR s fun u a =>
      if u.unwritten a = true then u.faultedBy 7 (regByte a)
      else if 255 < u.pc.toNat + 2 then u.rangeFault 2
      else { u with
        out := some (u.reg a)
        output := u.output ++ [u.reg a]
        pc := trunc8 (u.pc.toNat + 2) })

/-- R101, whole: SP is decremented and the register stored there; PUSH R7 pushes the decremented SP; SP = 0 faults. -/
def Obligations.PushCycle : Prop :=
  ∀ s : State, s.ready → s.byteAt 0 = 0x45 →
    step s = .next (cycleR s fun u a =>
      if u.unwritten a = true then u.faultedBy 7 (regByte a)
      else if u.reg 7 = 0x00 then u.faultedBy 5 0x00
      else if 255 < u.pc.toNat + 2 then u.rangeFault 2
      else { u with
        regs := u.regs.set 7 (u.reg 7 - 1)
        mem := u.mem.write (u.reg 7 - 1).toNat (if a = 7 then u.reg 7 - 1 else u.reg a)
        pc := trunc8 (u.pc.toNat + 2) })

/-- R102, whole: the register takes the byte at SP and SP is incremented; POP R7 leaves the popped value plus 1 in SP; an
increment of 255 faults; no unwritten register is read. -/
def Obligations.PopCycle : Prop :=
  ∀ s : State, s.ready → s.byteAt 0 = 0x46 →
    step s = .next (cycleR s fun u a =>
      let v := u.mem.read (u.reg 7).toNat
      let t := if a = 7 then v else u.reg 7
      if t = 0xFF then u.faultedBy 5 0xFF
      else if 255 < u.pc.toNat + 2 then u.rangeFault 2
      else { u with
        regs := (u.regs.set a v).set 7 (t + 1)
        xv := u.markWritten a
        pc := trunc8 (u.pc.toNat + 2) })

/-- R111, whole: `pc` takes the register's value, with no advance and so no fault but those of the operand. -/
def Obligations.JmpCycle : Prop :=
  ∀ s : State, s.ready → s.byteAt 0 = 0x54 →
    step s = .next (cycleR s fun u a =>
      if u.unwritten a = true then u.faultedBy 7 (regByte a) else { u with pc := u.reg a })

/-- R112, whole: with FLV = 0 the fault; with E = 1 `pc` takes the register's value, which is read only then; else `pc`
advances by 2. -/
def Obligations.JeqCycle : Prop :=
  ∀ s : State, s.ready → s.byteAt 0 = 0x55 →
    step s = .next (cycleR s fun u a =>
      if u.flv = false then u.faultedBy 6 0x00
      else if u.fl.getLsbD 0 = true then
        if u.unwritten a = true then u.faultedBy 7 (regByte a) else { u with pc := u.reg a }
      else if 255 < u.pc.toNat + 2 then u.rangeFault 2
      else { u with pc := trunc8 (u.pc.toNat + 2) })

/-- R113, whole: with FLV = 0 the fault; with E = 0 `pc` takes the register's value, which is read only then; else `pc`
advances by 2. -/
def Obligations.JneCycle : Prop :=
  ∀ s : State, s.ready → s.byteAt 0 = 0x56 →
    step s = .next (cycleR s fun u a =>
      if u.flv = false then u.faultedBy 6 0x00
      else if u.fl.getLsbD 0 = false then
        if u.unwritten a = true then u.faultedBy 7 (regByte a) else { u with pc := u.reg a }
      else if 255 < u.pc.toNat + 2 then u.rangeFault 2
      else { u with pc := trunc8 (u.pc.toNat + 2) })

/-- R114, whole: `pc` + 2 is pushed, which must be at most 255, and `pc` takes the register's value, read after the
decrement, so that CALL R7 jumps to the decremented SP. -/
def Obligations.CallCycle : Prop :=
  ∀ s : State, s.ready → s.byteAt 0 = 0x50 →
    step s = .next (cycleR s fun u a =>
      if u.unwritten a = true then u.faultedBy 7 (regByte a)
      else if u.reg 7 = 0x00 then u.faultedBy 5 0x00
      else if 255 < u.pc.toNat + 2 then u.rangeFault 2
      else { u with
        regs := u.regs.set 7 (u.reg 7 - 1)
        mem := u.mem.write (u.reg 7 - 1).toNat (trunc8 (u.pc.toNat + 2))
        pc := if a = 7 then u.reg 7 - 1 else u.reg a })

/-- R115, whole, and the property it repeats: a CALL, then a RET with SP and the pushed cell as the CALL left them, is
back at call-site + 2 with SP as before. -/
def Obligations.RetCycle : Prop :=
  (∀ s : State, s.ready → s.byteAt 0 = 0x11 →
    step s = .next (
      if s.reg 7 = 0xFF then s.beginCycle.faultedBy 5 0xFF
      else { s.beginCycle with
        regs := s.regs.set 7 (s.reg 7 + 1)
        pc := s.mem.read (s.reg 7).toNat })) ∧
  (∀ (x : Byte) (s t u : State), s.run = .running → exec (.call x) s = .next t → t.run = .running →
    u.reg 7 = t.reg 7 → u.mem.read (t.reg 7).toNat = t.mem.read (t.reg 7).toNat →
    ∃ w, exec .ret u = .next w ∧ w.pc.toNat = s.pc.toNat + 2 ∧ w.reg 7 = s.reg 7 ∧ w.run = u.run)

/-- R120, whole: HLT changes nothing, so however many cycles go by without reset or a stop request, it is there still. -/
def Obligations.HltSpins : Prop :=
  (∀ s : State, exec .hlt s = .next s) ∧
  (∀ s : State, s.ready → s.byteAt 0 = 0x01 → step s = .next { s with inputs := s.inputs.tail, out := none }) ∧
  (∀ (n : Nat) (s : State), s.run = .running → s.byteAt 0 = 0x01 →
    (∀ p ∈ s.inputs, p.rst = false ∧ p.abort = false ∧ p.cancel = false) →
    core.run (n + 1) s = .next { s with inputs := s.inputs.drop (n + 1), out := none })

-- Every instruction completes

/-- ADD, MUL, CMP and AND complete on readable registers: the sum or product fits or is truncated, and the advance stays
in memory (R72 to R75). -/
def Obligations.AluInstructionsComplete : Prop :=
  ∀ (a b : Reg) (s : State), s.unwritten a = false → s.unwritten b = false →
    (s.pc.toNat + 3 ≤ 255 → s.params.ovfMode = .wrap ∨ (s.reg a).toNat + (s.reg b).toNat ≤ 255 →
      ∃ t, exec (.add (regByte a) (regByte b)) s = .next t ∧
        (t.reg a).toNat = ((s.reg a).toNat + (s.reg b).toNat) % 256 ∧ t.pc.toNat = s.pc.toNat + 3 ∧ t.run = s.run) ∧
    (s.pc.toNat + 3 ≤ 255 → s.params.ovfMode = .wrap ∨ (s.reg a).toNat * (s.reg b).toNat ≤ 255 →
      ∃ t, exec (.mul (regByte a) (regByte b)) s = .next t ∧
        (t.reg a).toNat = ((s.reg a).toNat * (s.reg b).toNat) % 256 ∧ t.pc.toNat = s.pc.toNat + 3 ∧ t.run = s.run) ∧
    (s.pc.toNat + 3 ≤ 255 →
      ∃ t, exec (.cmp (regByte a) (regByte b)) s = .next t ∧
        (t.fl = 1 ↔ (s.reg a).toNat = (s.reg b).toNat) ∧ (t.fl = 2 ↔ (s.reg b).toNat < (s.reg a).toNat) ∧
        (t.fl = 4 ↔ (s.reg a).toNat < (s.reg b).toNat) ∧ t.flv = true ∧ t.pc.toNat = s.pc.toNat + 3 ∧
        t.run = s.run) ∧
    (∃ t, exec (.and (regByte a) (regByte b)) s = .next t ∧
      (∀ k, k < 8 → (t.reg a).getLsbD k = ((s.reg a).getLsbD k && (s.reg b).getLsbD k)) ∧ t.pc = s.pc ∧ t.run = s.run)

/-- LDI, PRN and ST complete (R90, R91, R92). -/
def Obligations.DataInstructionsComplete : Prop :=
  ∀ (a b : Reg) (imm8 : Byte) (s : State),
    (s.pc.toNat + 3 ≤ 255 →
      ∃ t, exec (.ldi (regByte a) imm8) s = .next t ∧ t.reg a = imm8 ∧ t.unwritten a = false ∧
        t.pc.toNat = s.pc.toNat + 3 ∧ t.run = s.run) ∧
    (s.unwritten a = false → s.pc.toNat + 2 ≤ 255 →
      ∃ t, exec (.prn (regByte a)) s = .next t ∧ t.out = some (s.reg a) ∧ t.output = s.output ++ [s.reg a] ∧
        t.pc.toNat = s.pc.toNat + 2 ∧ t.run = s.run) ∧
    (s.unwritten a = false → s.unwritten b = false →
      ∃ t, exec (.st (regByte a) (regByte b)) s = .next t ∧ t.mem.read (s.reg b).toNat = s.reg a ∧ t.pc = s.pc ∧
        t.run = s.run)

/-- PUSH and POP complete (R100, R101, R102): decrement-then-store, load-then-increment. -/
def Obligations.StackInstructionsComplete : Prop :=
  ∀ (a : Reg) (s : State), s.pc.toNat + 2 ≤ 255 →
    (s.unwritten a = false → s.reg 7 ≠ 0x00 →
      ∃ t, exec (.push (regByte a)) s = .next t ∧ (t.reg 7).toNat + 1 = (s.reg 7).toNat ∧
        t.mem.read (t.reg 7).toNat = t.reg a ∧ (a ≠ 7 → t.reg a = s.reg a) ∧ t.pc.toNat = s.pc.toNat + 2 ∧
        t.run = s.run) ∧
    (a ≠ 7 → s.reg 7 ≠ 0xFF →
      ∃ t, exec (.pop (regByte a)) s = .next t ∧ t.reg a = s.mem.read (s.reg 7).toNat ∧
        (t.reg 7).toNat = (s.reg 7).toNat + 1 ∧ t.pc.toNat = s.pc.toNat + 2 ∧ t.run = s.run) ∧
    (s.mem.read (s.reg 7).toNat ≠ 0xFF →
      ∃ t, exec (.pop (regByte 7)) s = .next t ∧ (t.reg 7).toNat = (s.mem.read (s.reg 7).toNat).toNat + 1 ∧
        t.pc.toNat = s.pc.toNat + 2 ∧ t.run = s.run)

/-- JMP, JEQ and JNE complete, taken and not taken (R111, R112, R113): JEQ is taken when E is 1, JNE when it is 0. -/
def Obligations.JumpsComplete : Prop :=
  ∀ (a : Reg) (s : State),
    (s.unwritten a = false → ∃ t, exec (.jmp (regByte a)) s = .next t ∧ t.pc = s.reg a ∧ t.run = s.run) ∧
    (s.flv = true → s.fl.getLsbD 0 = true → s.unwritten a = false →
      ∃ t, exec (.jeq (regByte a)) s = .next t ∧ t.pc = s.reg a ∧ t.run = s.run) ∧
    (s.flv = true → s.fl.getLsbD 0 = false → s.pc.toNat + 2 ≤ 255 →
      ∃ t, exec (.jeq (regByte a)) s = .next t ∧ t.pc.toNat = s.pc.toNat + 2 ∧ t.run = s.run) ∧
    (s.flv = true → s.fl.getLsbD 0 = false → s.unwritten a = false →
      ∃ t, exec (.jne (regByte a)) s = .next t ∧ t.pc = s.reg a ∧ t.run = s.run) ∧
    (s.flv = true → s.fl.getLsbD 0 = true → s.pc.toNat + 2 ≤ 255 →
      ∃ t, exec (.jne (regByte a)) s = .next t ∧ t.pc.toNat = s.pc.toNat + 2 ∧ t.run = s.run)

/-- CALL, RET and HLT complete (R114, R115, R120). -/
def Obligations.CallRetAndHltComplete : Prop :=
  ∀ (a : Reg) (s : State),
    (s.unwritten a = false → s.reg 7 ≠ 0x00 → s.pc.toNat + 2 ≤ 255 →
      ∃ t, exec (.call (regByte a)) s = .next t ∧ (t.reg 7).toNat + 1 = (s.reg 7).toNat ∧
        (t.mem.read (t.reg 7).toNat).toNat = s.pc.toNat + 2 ∧ t.pc = t.reg a ∧ (a ≠ 7 → t.reg a = s.reg a) ∧
        t.run = s.run) ∧
    (s.reg 7 ≠ 0xFF →
      ∃ t, exec .ret s = .next t ∧ t.pc = s.mem.read (s.reg 7).toNat ∧ (t.reg 7).toNat = (s.reg 7).toNat + 1 ∧
        t.run = s.run) ∧
    exec .hlt s = .next s

-- Properties the spec requires of pairs and of the ALU

/-- R103: PUSH then POP of one register restores it and SP, and leaves the pushed byte and a `pc` 4 further; for R7 too SP
is restored; and two pushes are popped in the opposite order. -/
def Obligations.PushThenPopRestores : Prop :=
  (∀ (a : Reg) (s : State), s.run = .running → s.unwritten a = false → s.reg 7 ≠ 0x00 → s.pc.toNat + 4 ≤ 255 →
    ∃ t u, exec (.push (regByte a)) s = .next t ∧ exec (.pop (regByte a)) t = .next u ∧ u.run = .running ∧
      u.reg a = s.reg a ∧ u.reg 7 = s.reg 7 ∧
      (a ≠ 7 → u = { s with mem := u.mem, pc := u.pc } ∧ u.mem.read (s.reg 7 - 1).toNat = s.reg a) ∧
      (∀ addr : Nat, addr ≠ (s.reg 7 - 1).toNat → u.mem.read addr = s.mem.read addr) ∧
      u.pc.toNat = s.pc.toNat + 4) ∧
  (∀ (a b c d : Reg) (s : State), a ≠ 7 → b ≠ 7 → c ≠ 7 → d ≠ 7 → c ≠ d → s.run = .running →
    s.unwritten a = false → s.unwritten b = false → 2 ≤ (s.reg 7).toNat → s.pc.toNat + 8 ≤ 255 →
    ∃ t u v w, exec (.push (regByte a)) s = .next t ∧ exec (.push (regByte b)) t = .next u ∧
      exec (.pop (regByte c)) u = .next v ∧ exec (.pop (regByte d)) v = .next w ∧
      w.reg c = s.reg b ∧ w.reg d = s.reg a ∧ w.reg 7 = s.reg 7 ∧ w.run = .running)

/-- In every state with FLV = 1 exactly one of JEQ and JNE is taken (R113): where both complete on a target that is not
the next instruction, one goes to the target and the other advances. -/
def Obligations.ExactlyOneOfJeqAndJneIsTaken : Prop :=
  ∀ (a : Reg) (s t u : State), s.run = .running → s.flv = true →
    exec (.jeq (regByte a)) s = .next t → exec (.jne (regByte a)) s = .next u →
    t.run = .running → u.run = .running →
    (t.pc = s.reg a ∧ u.pc.toNat = s.pc.toNat + 2) ∨ (u.pc = s.reg a ∧ t.pc.toNat = s.pc.toNat + 2)

/-- R77 to R83: the dead ALU operations if invoked, MOD by zero without a value, any other tag UnsupportedAluOp, which no
instruction raises. -/
def Obligations.DeadAluOperations : Prop :=
  (∀ (a b : Reg) (s : State), s.unwritten a = false → s.unwritten b = false →
    aluInvoke .or a b s = .next (s.writeReg a (s.reg a ||| s.reg b)) ∧
    aluInvoke .xor a b s = .next (s.writeReg a (s.reg a ^^^ s.reg b)) ∧
    (s.params.ovfMode = .wrap → aluInvoke .shl a b s = .next (s.writeReg a (s.reg a <<< (s.reg b).toNat))) ∧
    (s.params.ovfMode = .wrap → 8 ≤ (s.reg b).toNat → aluInvoke .shl a b s = .next (s.writeReg a 0)) ∧
    (s.params.ovfMode = .fault → 255 < (s.reg a).toNat * 2 ^ (s.reg b).toNat →
      aluInvoke .shl a b s = .next (s.faultedBy 8 (trunc8 ((s.reg a).toNat * 2 ^ (s.reg b).toNat)))) ∧
    (s.params.ovfMode = .fault → (s.reg a).toNat * 2 ^ (s.reg b).toNat ≤ 255 →
      aluInvoke .shl a b s = .next (s.writeReg a (s.reg a <<< (s.reg b).toNat))) ∧
    aluInvoke .shr a b s = .next (s.writeReg a (s.reg a >>> (s.reg b).toNat)) ∧
    (8 ≤ (s.reg b).toNat → aluInvoke .shr a b s = .next (s.writeReg a 0)) ∧
    (s.reg b ≠ 0 → aluInvoke .mod a b s = .next (s.writeReg a (s.reg a % s.reg b))) ∧
    (s.reg b = 0 → aluInvoke .mod a b s = .refused .modZeroDivisor)) ∧
  (∀ (a b : Reg) (s : State), s.unwritten a = false →
    aluInvoke .not a b s = .next (s.writeReg a (255 - s.reg a))) ∧
  (∀ (a b : Reg) (s : State), aluInvoke .unsupported a b s = .next (s.faultedBy 2 0)) ∧
  (∀ (i : Instr) (s t : State), s.run = .running → exec i s = .next t → t.run = .faulted → t.fcause ≠ 2)

/-- A store is seen by the very next fetch (R42): after a cycle of ST, PUSH or CALL, every byte the next cycle can fetch is
the byte stored if it stands at the address stored to, and as before otherwise. ST stores `x[a]` at `x[b]` and leaves `pc`
(R91); PUSH stores its register, read after the decrement, at the decremented SP (R101); CALL stores `pc` + 2 there and
goes on at its register, read after the decrement (R114). -/
def Obligations.StoreIsSeenByTheNextFetch : Prop :=
  (∀ (a b : Reg) (s t : State), s.ready → s.params.op84 = .st → s.byteAt 0 = 0x84 → s.pc.toNat + 2 ≤ 255 →
    s.byteAt 1 = regByte a → s.byteAt 2 = regByte b → step s = .next t → t.run = .running →
    t.pc = s.pc ∧ ∀ k, t.byteAt k = if s.pc.toNat + k = (s.reg b).toNat then s.reg a else s.byteAt k) ∧
  (∀ (a : Reg) (s t : State), s.ready → s.byteAt 0 = 0x45 → s.pc.toNat + 1 ≤ 255 → s.byteAt 1 = regByte a →
    step s = .next t → t.run = .running →
    t.pc.toNat = s.pc.toNat + 2 ∧
    ∀ k, t.byteAt k =
      if s.pc.toNat + 2 + k = (s.reg 7 - 1).toNat then (if a = 7 then s.reg 7 - 1 else s.reg a)
      else s.byteAt (2 + k)) ∧
  (∀ (a : Reg) (s t : State), s.ready → s.byteAt 0 = 0x50 → s.pc.toNat + 1 ≤ 255 → s.byteAt 1 = regByte a →
    step s = .next t → t.run = .running →
    t.pc = (if a = 7 then s.reg 7 - 1 else s.reg a) ∧
    ∀ k, t.byteAt k =
      if t.pc.toNat + k = (s.reg 7 - 1).toNat then trunc8 (s.pc.toNat + 2) else s.mem.read (t.pc.toNat + k))
end

