-- ==== Sys2Proof/Laws/State.lean ====
section
/-!
SUPPORT. One lemma per field per update of State, true by rfl.
-/

namespace Sys2Proof.Machine

section fields
variable (s : State) (r : Reg) (v w : Byte) (c : HaltCause) (f : CoreFault) (code : BitVec 4) (a : Byte)

@[simp] theorem State.writeReg_regs : (s.writeReg r v).regs = s.regs.set r v := rfl
@[simp] theorem State.writeReg_xv : (s.writeReg r v).xv = s.markWritten r := rfl
@[simp] theorem State.writeReg_pc : (s.writeReg r v).pc = s.pc := rfl
@[simp] theorem State.writeReg_fl : (s.writeReg r v).fl = s.fl := rfl
@[simp] theorem State.writeReg_flv : (s.writeReg r v).flv = s.flv := rfl
@[simp] theorem State.writeReg_mem : (s.writeReg r v).mem = s.mem := rfl
@[simp] theorem State.writeReg_run : (s.writeReg r v).run = s.run := rfl
@[simp] theorem State.writeReg_hcause : (s.writeReg r v).hcause = s.hcause := rfl
@[simp] theorem State.writeReg_fcause : (s.writeReg r v).fcause = s.fcause := rfl
@[simp] theorem State.writeReg_finfo : (s.writeReg r v).finfo = s.finfo := rfl
@[simp] theorem State.writeReg_out : (s.writeReg r v).out = s.out := rfl
@[simp] theorem State.writeReg_output : (s.writeReg r v).output = s.output := rfl
@[simp] theorem State.writeReg_inputs : (s.writeReg r v).inputs = s.inputs := rfl
@[simp] theorem State.writeReg_params : (s.writeReg r v).params = s.params := rfl

@[simp] theorem State.setSp_regs : (s.setSp v).regs = s.regs.set 7 v := rfl
@[simp] theorem State.setSp_xv : (s.setSp v).xv = s.markWritten 7 := rfl
@[simp] theorem State.setSp_pc : (s.setSp v).pc = s.pc := rfl
@[simp] theorem State.setSp_fl : (s.setSp v).fl = s.fl := rfl
@[simp] theorem State.setSp_flv : (s.setSp v).flv = s.flv := rfl
@[simp] theorem State.setSp_mem : (s.setSp v).mem = s.mem := rfl
@[simp] theorem State.setSp_run : (s.setSp v).run = s.run := rfl
@[simp] theorem State.setSp_hcause : (s.setSp v).hcause = s.hcause := rfl
@[simp] theorem State.setSp_fcause : (s.setSp v).fcause = s.fcause := rfl
@[simp] theorem State.setSp_finfo : (s.setSp v).finfo = s.finfo := rfl
@[simp] theorem State.setSp_out : (s.setSp v).out = s.out := rfl
@[simp] theorem State.setSp_output : (s.setSp v).output = s.output := rfl
@[simp] theorem State.setSp_inputs : (s.setSp v).inputs = s.inputs := rfl
@[simp] theorem State.setSp_params : (s.setSp v).params = s.params := rfl

@[simp] theorem State.writeMem_regs : (s.writeMem v w).regs = s.regs := rfl
@[simp] theorem State.writeMem_xv : (s.writeMem v w).xv = s.xv := rfl
@[simp] theorem State.writeMem_pc : (s.writeMem v w).pc = s.pc := rfl
@[simp] theorem State.writeMem_fl : (s.writeMem v w).fl = s.fl := rfl
@[simp] theorem State.writeMem_flv : (s.writeMem v w).flv = s.flv := rfl
@[simp] theorem State.writeMem_mem : (s.writeMem v w).mem = s.mem.write v.toNat w := rfl
@[simp] theorem State.writeMem_run : (s.writeMem v w).run = s.run := rfl
@[simp] theorem State.writeMem_hcause : (s.writeMem v w).hcause = s.hcause := rfl
@[simp] theorem State.writeMem_fcause : (s.writeMem v w).fcause = s.fcause := rfl
@[simp] theorem State.writeMem_finfo : (s.writeMem v w).finfo = s.finfo := rfl
@[simp] theorem State.writeMem_out : (s.writeMem v w).out = s.out := rfl
@[simp] theorem State.writeMem_output : (s.writeMem v w).output = s.output := rfl
@[simp] theorem State.writeMem_inputs : (s.writeMem v w).inputs = s.inputs := rfl
@[simp] theorem State.writeMem_params : (s.writeMem v w).params = s.params := rfl

@[simp] theorem State.setPc_regs : (s.setPc v).regs = s.regs := rfl
@[simp] theorem State.setPc_xv : (s.setPc v).xv = s.xv := rfl
@[simp] theorem State.setPc_pc : (s.setPc v).pc = v := rfl
@[simp] theorem State.setPc_fl : (s.setPc v).fl = s.fl := rfl
@[simp] theorem State.setPc_flv : (s.setPc v).flv = s.flv := rfl
@[simp] theorem State.setPc_mem : (s.setPc v).mem = s.mem := rfl
@[simp] theorem State.setPc_run : (s.setPc v).run = s.run := rfl
@[simp] theorem State.setPc_hcause : (s.setPc v).hcause = s.hcause := rfl
@[simp] theorem State.setPc_fcause : (s.setPc v).fcause = s.fcause := rfl
@[simp] theorem State.setPc_finfo : (s.setPc v).finfo = s.finfo := rfl
@[simp] theorem State.setPc_out : (s.setPc v).out = s.out := rfl
@[simp] theorem State.setPc_output : (s.setPc v).output = s.output := rfl
@[simp] theorem State.setPc_inputs : (s.setPc v).inputs = s.inputs := rfl
@[simp] theorem State.setPc_params : (s.setPc v).params = s.params := rfl

@[simp] theorem State.setFlags_regs : (s.setFlags v).regs = s.regs := rfl
@[simp] theorem State.setFlags_xv : (s.setFlags v).xv = s.xv := rfl
@[simp] theorem State.setFlags_pc : (s.setFlags v).pc = s.pc := rfl
@[simp] theorem State.setFlags_fl : (s.setFlags v).fl = v := rfl
@[simp] theorem State.setFlags_flv : (s.setFlags v).flv = true := rfl
@[simp] theorem State.setFlags_mem : (s.setFlags v).mem = s.mem := rfl
@[simp] theorem State.setFlags_run : (s.setFlags v).run = s.run := rfl
@[simp] theorem State.setFlags_hcause : (s.setFlags v).hcause = s.hcause := rfl
@[simp] theorem State.setFlags_fcause : (s.setFlags v).fcause = s.fcause := rfl
@[simp] theorem State.setFlags_finfo : (s.setFlags v).finfo = s.finfo := rfl
@[simp] theorem State.setFlags_out : (s.setFlags v).out = s.out := rfl
@[simp] theorem State.setFlags_output : (s.setFlags v).output = s.output := rfl
@[simp] theorem State.setFlags_inputs : (s.setFlags v).inputs = s.inputs := rfl
@[simp] theorem State.setFlags_params : (s.setFlags v).params = s.params := rfl

@[simp] theorem State.emit_regs : (s.emit v).regs = s.regs := rfl
@[simp] theorem State.emit_xv : (s.emit v).xv = s.xv := rfl
@[simp] theorem State.emit_pc : (s.emit v).pc = s.pc := rfl
@[simp] theorem State.emit_fl : (s.emit v).fl = s.fl := rfl
@[simp] theorem State.emit_flv : (s.emit v).flv = s.flv := rfl
@[simp] theorem State.emit_mem : (s.emit v).mem = s.mem := rfl
@[simp] theorem State.emit_run : (s.emit v).run = s.run := rfl
@[simp] theorem State.emit_hcause : (s.emit v).hcause = s.hcause := rfl
@[simp] theorem State.emit_fcause : (s.emit v).fcause = s.fcause := rfl
@[simp] theorem State.emit_finfo : (s.emit v).finfo = s.finfo := rfl
@[simp] theorem State.emit_out : (s.emit v).out = some v := rfl
@[simp] theorem State.emit_output : (s.emit v).output = s.output ++ [v] := rfl
@[simp] theorem State.emit_inputs : (s.emit v).inputs = s.inputs := rfl
@[simp] theorem State.emit_params : (s.emit v).params = s.params := rfl

@[simp] theorem State.raise_regs : (s.raise f).regs = s.regs := rfl
@[simp] theorem State.raise_xv : (s.raise f).xv = s.xv := rfl
@[simp] theorem State.raise_pc : (s.raise f).pc = s.pc := rfl
@[simp] theorem State.raise_fl : (s.raise f).fl = s.fl := rfl
@[simp] theorem State.raise_flv : (s.raise f).flv = s.flv := rfl
@[simp] theorem State.raise_mem : (s.raise f).mem = s.mem := rfl
@[simp] theorem State.raise_run : (s.raise f).run = .faulted := rfl
@[simp] theorem State.raise_hcause : (s.raise f).hcause = s.hcause := rfl
@[simp] theorem State.raise_fcause : (s.raise f).fcause = f.code := rfl
@[simp] theorem State.raise_finfo : (s.raise f).finfo = f.info := rfl
@[simp] theorem State.raise_out : (s.raise f).out = s.out := rfl
@[simp] theorem State.raise_output : (s.raise f).output = s.output := rfl
@[simp] theorem State.raise_inputs : (s.raise f).inputs = s.inputs := rfl
@[simp] theorem State.raise_params : (s.raise f).params = s.params := rfl

@[simp] theorem State.faultedBy_regs : (s.faultedBy code v).regs = s.regs := rfl
@[simp] theorem State.faultedBy_xv : (s.faultedBy code v).xv = s.xv := rfl
@[simp] theorem State.faultedBy_pc : (s.faultedBy code v).pc = s.pc := rfl
@[simp] theorem State.faultedBy_fl : (s.faultedBy code v).fl = s.fl := rfl
@[simp] theorem State.faultedBy_flv : (s.faultedBy code v).flv = s.flv := rfl
@[simp] theorem State.faultedBy_mem : (s.faultedBy code v).mem = s.mem := rfl
@[simp] theorem State.faultedBy_run : (s.faultedBy code v).run = .faulted := rfl
@[simp] theorem State.faultedBy_hcause : (s.faultedBy code v).hcause = s.hcause := rfl
@[simp] theorem State.faultedBy_fcause : (s.faultedBy code v).fcause = code := rfl
@[simp] theorem State.faultedBy_finfo : (s.faultedBy code v).finfo = v := rfl
@[simp] theorem State.faultedBy_out : (s.faultedBy code v).out = s.out := rfl
@[simp] theorem State.faultedBy_output : (s.faultedBy code v).output = s.output := rfl
@[simp] theorem State.faultedBy_inputs : (s.faultedBy code v).inputs = s.inputs := rfl
@[simp] theorem State.faultedBy_params : (s.faultedBy code v).params = s.params := rfl

@[simp] theorem State.halt_regs : (s.halt c).regs = s.regs := rfl
@[simp] theorem State.halt_xv : (s.halt c).xv = s.xv := rfl
@[simp] theorem State.halt_pc : (s.halt c).pc = s.pc := rfl
@[simp] theorem State.halt_fl : (s.halt c).fl = s.fl := rfl
@[simp] theorem State.halt_flv : (s.halt c).flv = s.flv := rfl
@[simp] theorem State.halt_mem : (s.halt c).mem = s.mem := rfl
@[simp] theorem State.halt_run : (s.halt c).run = .halted := rfl
@[simp] theorem State.halt_hcause : (s.halt c).hcause = c := rfl
@[simp] theorem State.halt_fcause : (s.halt c).fcause = s.fcause := rfl
@[simp] theorem State.halt_finfo : (s.halt c).finfo = s.finfo := rfl
@[simp] theorem State.halt_out : (s.halt c).out = s.out := rfl
@[simp] theorem State.halt_output : (s.halt c).output = s.output := rfl
@[simp] theorem State.halt_inputs : (s.halt c).inputs = s.inputs := rfl
@[simp] theorem State.halt_params : (s.halt c).params = s.params := rfl

@[simp] theorem State.beginCycle_regs : (s.beginCycle).regs = s.regs := rfl
@[simp] theorem State.beginCycle_xv : (s.beginCycle).xv = s.xv := rfl
@[simp] theorem State.beginCycle_pc : (s.beginCycle).pc = s.pc := rfl
@[simp] theorem State.beginCycle_fl : (s.beginCycle).fl = s.fl := rfl
@[simp] theorem State.beginCycle_flv : (s.beginCycle).flv = s.flv := rfl
@[simp] theorem State.beginCycle_mem : (s.beginCycle).mem = s.mem := rfl
@[simp] theorem State.beginCycle_run : (s.beginCycle).run = s.run := rfl
@[simp] theorem State.beginCycle_hcause : (s.beginCycle).hcause = s.hcause := rfl
@[simp] theorem State.beginCycle_fcause : (s.beginCycle).fcause = s.fcause := rfl
@[simp] theorem State.beginCycle_finfo : (s.beginCycle).finfo = s.finfo := rfl
@[simp] theorem State.beginCycle_out : (s.beginCycle).out = none := rfl
@[simp] theorem State.beginCycle_output : (s.beginCycle).output = s.output := rfl
@[simp] theorem State.beginCycle_inputs : (s.beginCycle).inputs = s.inputs.tail := rfl
@[simp] theorem State.beginCycle_params : (s.beginCycle).params = s.params := rfl

@[simp] theorem State.writeMem_reg : (s.writeMem v w).reg r = s.reg r := rfl
@[simp] theorem State.writeMem_marked : (s.writeMem v w).marked r = s.marked r := rfl
@[simp] theorem State.writeMem_unwritten : (s.writeMem v w).unwritten r = s.unwritten r := rfl
@[simp] theorem State.writeMem_sp : (s.writeMem v w).sp = s.sp := rfl

@[simp] theorem State.setPc_reg : (s.setPc v).reg r = s.reg r := rfl
@[simp] theorem State.setPc_marked : (s.setPc v).marked r = s.marked r := rfl
@[simp] theorem State.setPc_unwritten : (s.setPc v).unwritten r = s.unwritten r := rfl
@[simp] theorem State.setPc_sp : (s.setPc v).sp = s.sp := rfl
@[simp] theorem State.setPc_readMem : (s.setPc v).readMem a = s.readMem a := rfl

@[simp] theorem State.setFlags_reg : (s.setFlags v).reg r = s.reg r := rfl
@[simp] theorem State.setFlags_marked : (s.setFlags v).marked r = s.marked r := rfl
@[simp] theorem State.setFlags_unwritten : (s.setFlags v).unwritten r = s.unwritten r := rfl
@[simp] theorem State.setFlags_sp : (s.setFlags v).sp = s.sp := rfl
@[simp] theorem State.setFlags_readMem : (s.setFlags v).readMem a = s.readMem a := rfl

@[simp] theorem State.emit_reg : (s.emit v).reg r = s.reg r := rfl
@[simp] theorem State.emit_marked : (s.emit v).marked r = s.marked r := rfl
@[simp] theorem State.emit_unwritten : (s.emit v).unwritten r = s.unwritten r := rfl
@[simp] theorem State.emit_sp : (s.emit v).sp = s.sp := rfl
@[simp] theorem State.emit_readMem : (s.emit v).readMem a = s.readMem a := rfl

@[simp] theorem State.raise_reg : (s.raise f).reg r = s.reg r := rfl
@[simp] theorem State.raise_marked : (s.raise f).marked r = s.marked r := rfl
@[simp] theorem State.raise_unwritten : (s.raise f).unwritten r = s.unwritten r := rfl
@[simp] theorem State.raise_sp : (s.raise f).sp = s.sp := rfl
@[simp] theorem State.raise_readMem : (s.raise f).readMem a = s.readMem a := rfl

@[simp] theorem State.faultedBy_reg : (s.faultedBy code v).reg r = s.reg r := rfl
@[simp] theorem State.faultedBy_marked : (s.faultedBy code v).marked r = s.marked r := rfl
@[simp] theorem State.faultedBy_unwritten : (s.faultedBy code v).unwritten r = s.unwritten r := rfl
@[simp] theorem State.faultedBy_sp : (s.faultedBy code v).sp = s.sp := rfl
@[simp] theorem State.faultedBy_readMem : (s.faultedBy code v).readMem a = s.readMem a := rfl

@[simp] theorem State.halt_reg : (s.halt c).reg r = s.reg r := rfl
@[simp] theorem State.halt_marked : (s.halt c).marked r = s.marked r := rfl
@[simp] theorem State.halt_unwritten : (s.halt c).unwritten r = s.unwritten r := rfl
@[simp] theorem State.halt_sp : (s.halt c).sp = s.sp := rfl
@[simp] theorem State.halt_readMem : (s.halt c).readMem a = s.readMem a := rfl

@[simp] theorem State.beginCycle_reg : (s.beginCycle).reg r = s.reg r := rfl
@[simp] theorem State.beginCycle_marked : (s.beginCycle).marked r = s.marked r := rfl
@[simp] theorem State.beginCycle_unwritten : (s.beginCycle).unwritten r = s.unwritten r := rfl
@[simp] theorem State.beginCycle_sp : (s.beginCycle).sp = s.sp := rfl
@[simp] theorem State.beginCycle_readMem : (s.beginCycle).readMem a = s.readMem a := rfl

@[simp] theorem State.pushAt_regs : (s.pushAt v w).regs = s.regs.set 7 v := rfl
@[simp] theorem State.pushAt_xv : (s.pushAt v w).xv = s.markWritten 7 := rfl
@[simp] theorem State.pushAt_pc : (s.pushAt v w).pc = s.pc := rfl
@[simp] theorem State.pushAt_fl : (s.pushAt v w).fl = s.fl := rfl
@[simp] theorem State.pushAt_flv : (s.pushAt v w).flv = s.flv := rfl
@[simp] theorem State.pushAt_mem : (s.pushAt v w).mem = s.mem.write v.toNat w := rfl
@[simp] theorem State.pushAt_run : (s.pushAt v w).run = s.run := rfl
@[simp] theorem State.pushAt_hcause : (s.pushAt v w).hcause = s.hcause := rfl
@[simp] theorem State.pushAt_fcause : (s.pushAt v w).fcause = s.fcause := rfl
@[simp] theorem State.pushAt_finfo : (s.pushAt v w).finfo = s.finfo := rfl
@[simp] theorem State.pushAt_out : (s.pushAt v w).out = s.out := rfl
@[simp] theorem State.pushAt_output : (s.pushAt v w).output = s.output := rfl
@[simp] theorem State.pushAt_inputs : (s.pushAt v w).inputs = s.inputs := rfl
@[simp] theorem State.pushAt_params : (s.pushAt v w).params = s.params := rfl

end fields

section views
variable (s : State)

theorem State.sp_eq : s.sp = s.reg 7 := rfl

/-- SP has no mark (spec/10_state.md R25). -/
@[simp] theorem State.markWritten_seven : s.markWritten 7 = s.xv := by
  unfold State.markWritten
  cases s.params.gprReset <;> rfl

theorem State.reg_pushAt (q : Reg) (v w : Byte) : (s.pushAt v w).reg q = if 7 = q then v else s.reg q := by
  simp only [State.reg, State.pushAt_regs, Fin.getElem_fin, Vector.getElem_set, Fin.ext_iff]
  rfl

theorem State.read_pushAt (a : Nat) (v w : Byte) :
    (s.pushAt v w).mem.read a = if a = v.toNat then w else s.mem.read a := by
  rw [State.pushAt_mem, Memory.read_write]

theorem State.read_writeMem (a : Nat) (v w : Byte) :
    (s.writeMem v w).mem.read a = if a = v.toNat then w else s.mem.read a := by
  rw [State.writeMem_mem, Memory.read_write]

theorem State.reg_writeReg (r q : Reg) (v : Byte) : (s.writeReg r v).reg q = if r = q then v else s.reg q := by
  simp only [State.reg, State.writeReg, Fin.getElem_fin, Vector.getElem_set, Fin.val_inj]

theorem State.sp_writeReg (r : Reg) (v : Byte) : (s.writeReg r v).sp = if r = 7 then v else s.sp :=
  s.reg_writeReg r 7 v

theorem State.reg_setSp (q : Reg) (v : Byte) : (s.setSp v).reg q = if 7 = q then v else s.reg q :=
  s.reg_writeReg 7 q v

theorem State.marked_writeReg (r q : Reg) (v : Byte) :
    (s.writeReg r v).marked q = (s.marked q || (s.params.gprReset == .unwritten && r == q)) := by
  unfold State.marked State.writeReg State.markWritten
  cases s.params.gprReset with
  | zero => simp
  | unwritten =>
    by_cases hq : q.val < 7 <;> by_cases hr : r.val < 7
    · by_cases h : r = q
      · subst h
        simp [hq]
      · simp [hq, hr, h, Fin.val_ne_of_ne h]
    · have h : r ≠ q := fun h => hr (h ▸ hq)
      simp [hq, hr, h]
    · simp [hq]
    · simp [hq]

theorem State.marked_writeReg_other {r q : Reg} (v : Byte) (h : q ≠ r) : (s.writeReg r v).marked q = s.marked q := by
  rw [State.marked_writeReg]
  simp [h.symm]

@[simp] theorem State.marked_setSp (q : Reg) (v : Byte) : (s.setSp v).marked q = s.marked q := by
  unfold State.marked
  rw [State.setSp_xv, State.markWritten_seven]

@[simp] theorem State.marked_pushAt (q : Reg) (v w : Byte) : (s.pushAt v w).marked q = s.marked q :=
  s.marked_setSp q v

theorem State.readMem_eq (a : Byte) : s.readMem a = s.mem.read a.toNat := rfl

@[simp] theorem State.marked_seven : s.marked 7 = true := rfl

@[simp] theorem State.unwritten_seven : s.unwritten 7 = false := by simp [State.unwritten]

/-- A write of a register never leaves it unreadable (spec/10_state.md R25). -/
theorem State.unwritten_writeReg_same (r : Reg) (v : Byte) : (s.writeReg r v).unwritten r = false := by
  unfold State.unwritten
  rw [State.marked_writeReg, State.writeReg_params]
  cases s.params.gprReset <;> simp

end views

end Sys2Proof.Machine
end

