-- ==== Sys2Proof/Laws/Ops.lean ====
section
/-!
SUPPORT. One lemma per shared operation that says what it answers, and what `finish` makes of it.
-/

namespace Sys2Proof.Machine

-- Bytes

theorem trunc8_toNat {n : Nat} (h : n ≤ 255) : (trunc8 n).toNat = n := by
  simp only [trunc8, BitVec.toNat_ofNat]
  omega

theorem regByte_toNat (r : Reg) : (regByte r).toNat = r.val := by
  have := r.isLt
  simp only [regByte, BitVec.toNat_ofNat]
  omega

theorem trunc8_reg (r : Reg) : trunc8 r.val = regByte r := rfl

theorem regByte_inj {a b : Reg} (h : regByte a = regByte b) : a = b := by
  apply Fin.ext
  rw [← regByte_toNat a, ← regByte_toNat b, h]

/-- A byte below 8 is the operand byte of the register it indexes. -/
theorem regByte_of_lt {b : Byte} (h : b.toNat < 8) : regByte ⟨b.toNat, h⟩ = b := by
  simp [regByte]

/-- An operand byte names a register or is above 7. -/
theorem byte_cases (b : Byte) : (∃ r : Reg, b = regByte r) ∨ 7 < b.toNat := by
  by_cases h : b.toNat < 8
  · exact .inl ⟨⟨b.toNat, h⟩, (regByte_of_lt h).symm⟩
  · exact .inr (by omega)

-- Ends of an instruction

@[simp] theorem finish_ok (s t : State) : finish s (.ok t) = .next t := rfl

@[simp] theorem finish_fault (s : State) (f : CoreFault) : finish s (.error (.fault f)) = .next (s.raise f) := rfl

@[simp] theorem finish_refuse (s : State) (r : Refusal) : finish s (.error (.refuse r)) = .refused r := rfl

/-- What a next state after `finish` is: the completed one, or a fault taken from the state at the start. -/
theorem finish_next {s t : State} {r : Except Stop State} (h : finish s r = .next t) :
    r = .ok t ∨ ∃ f, r = .error (.fault f) ∧ t = s.raise f := by
  match r, h with
  | .ok u, h => exact .inl (by cases h; rfl)
  | .error (.fault f), h => exact .inr ⟨f, rfl, by cases h; rfl⟩

theorem raise_eq_faultedBy (s : State) (f : CoreFault) : s.raise f = s.faultedBy f.code f.info := rfl

@[simp] theorem bind_ok {α β : Type} (a : α) (k : α → Except Stop β) : (Except.ok a >>= k) = k a := rfl

@[simp] theorem bind_error {α β : Type} (e : Stop) (k : α → Except Stop β) :
    ((Except.error e : Except Stop α) >>= k) = .error e := rfl

theorem bind_ite {α β : Type} (c : Prop) [Decidable c] (x y : Except Stop α) (k : α → Except Stop β) :
    ((if c then x else y) >>= k) = if c then x >>= k else y >>= k := by split <;> rfl

theorem finish_ite (s : State) (c : Prop) [Decidable c] (x y : Except Stop State) :
    finish s (if c then x else y) = if c then finish s x else finish s y := by split <;> rfl

theorem next_ite (c : Prop) [Decidable c] (s t : State) :
    (Host.Outcome.next (if c then s else t) : Host.Outcome State Fault Refusal) =
      if c then .next s else .next t := by split <;> rfl

/-- A computation that completes: its first part completed, and the rest on what that gave. -/
theorem bind_eq_ok {α β : Type} {x : Except Stop α} {k : α → Except Stop β} {b : β} (h : (x >>= k) = .ok b) :
    ∃ a, x = .ok a ∧ k a = .ok b := by
  cases x with
  | ok a => exact ⟨a, rfl, h⟩
  | error e => cases h

/-- A computation that stops: in its first part, or in the rest on what that gave. -/
theorem bind_eq_error {α β : Type} {x : Except Stop α} {k : α → Except Stop β} {e : Stop}
    (h : (x >>= k) = .error e) : x = .error e ∨ ∃ a, x = .ok a ∧ k a = .error e := by
  cases x with
  | ok a => exact .inr ⟨a, rfl, h⟩
  | error e' => cases h; exact .inl rfl

-- Operands

theorem regOperand_lt {b : Byte} (h : b.toNat < 8) : regOperand b = .ok ⟨b.toNat, h⟩ := dif_pos h

theorem regOperand_gt {b : Byte} (h : 7 < b.toNat) : regOperand b = .error (.fault (.regIndex b)) :=
  dif_neg (by omega)

@[simp] theorem regOperand_regByte (r : Reg) : regOperand (regByte r) = .ok r := by
  have h : (regByte r).toNat < 8 := by rw [regByte_toNat]; exact r.isLt
  rw [regOperand_lt h]
  exact congrArg _ (Fin.ext (regByte_toNat r))

theorem regOperand_ok {b : Byte} {r : Reg} (h : regOperand b = .ok r) : b = regByte r := by
  obtain ⟨q, rfl⟩ | hb := byte_cases b
  · rw [regOperand_regByte] at h
    cases h; rfl
  · rw [regOperand_gt hb] at h
    cases h

theorem regOperand_error {b : Byte} {e : Stop} (h : regOperand b = .error e) :
    7 < b.toNat ∧ e = .fault (.regIndex b) := by
  obtain ⟨q, rfl⟩ | hb := byte_cases b
  · rw [regOperand_regByte] at h
    cases h
  · rw [regOperand_gt hb] at h
    cases h; exact ⟨hb, rfl⟩

theorem readReg_ok {s : State} {r : Reg} {v : Byte} (h : readReg s r = .ok v) : s.unwritten r = false ∧ v = s.reg r := by
  unfold readReg at h
  split at h
  · cases h
  · rename_i hu
    cases h; exact ⟨by simpa using hu, rfl⟩

theorem readReg_error {s : State} {r : Reg} {e : Stop} (h : readReg s r = .error e) :
    s.unwritten r = true ∧ e = .fault (.unwrittenRead r) := by
  unfold readReg at h
  split at h
  · rename_i hu
    cases h; exact ⟨hu, rfl⟩
  · cases h

theorem readE_ok {s : State} {e : Bool} (h : readE s = .ok e) : s.flv = true ∧ e = s.flagE := by
  unfold readE at h
  split at h
  · rename_i hf
    cases h; exact ⟨hf, rfl⟩
  · cases h

theorem readE_error {s : State} {e : Stop} (h : readE s = .error e) : s.flv = false ∧ e = .fault .flagsUnset := by
  unfold readE at h
  split at h
  · cases h
  · rename_i hf
    cases h; exact ⟨by simpa using hf, rfl⟩

theorem readReg_of_written {s : State} {r : Reg} (h : s.unwritten r = false) : readReg s r = .ok (s.reg r) := by
  rw [readReg, if_neg (by simp [h])]

theorem readE_of_set {s : State} (h : s.flv = true) : readE s = .ok s.flagE := if_pos h

theorem readE_of_unset {s : State} (h : s.flv = false) : readE s = .error (.fault .flagsUnset) :=
  if_neg (by simp [h])

-- Address and stack-pointer arithmetic

theorem pcPlus_of_le {s : State} {k : Nat} (h : s.pc.toNat + k ≤ 255) :
    s.pcPlus k = .ok (trunc8 (s.pc.toNat + k)) := if_neg (by omega)

theorem stackDown_of_ne {sp : Byte} (h : sp ≠ 0x00) : stackDown sp = .ok (sp - 1) := if_neg h

theorem stackUp_of_ne {sp : Byte} (h : sp ≠ 0xFF) : stackUp sp = .ok (sp + 1) := if_neg h

theorem pcPlus_ok {s : State} {k : Nat} {v : Byte} (h : s.pcPlus k = .ok v) :
    s.pc.toNat + k ≤ 255 ∧ v.toNat = s.pc.toNat + k := by
  unfold State.pcPlus at h
  split at h
  · cases h
  · cases h; exact ⟨by omega, trunc8_toNat (by omega)⟩

theorem pcPlus_error {s : State} {k : Nat} {e : Stop} (h : s.pcPlus k = .error e) :
    255 < s.pc.toNat + k ∧ e = .fault (.addressRange (trunc8 (s.pc.toNat + k))) := by
  unfold State.pcPlus at h
  split at h
  · rename_i hk
    cases h; exact ⟨hk, rfl⟩
  · cases h

theorem stackDown_ok {sp v : Byte} (h : stackDown sp = .ok v) : sp ≠ 0x00 ∧ v = sp - 1 := by
  unfold stackDown at h
  split at h
  · cases h
  · rename_i hs
    cases h; exact ⟨hs, rfl⟩

theorem stackDown_error {sp : Byte} {e : Stop} (h : stackDown sp = .error e) :
    sp = 0x00 ∧ e = .fault (.stackBounds 0x00) := by
  unfold stackDown at h
  split at h
  · rename_i hs
    cases h; exact ⟨hs, rfl⟩
  · cases h

theorem stackUp_ok {sp v : Byte} (h : stackUp sp = .ok v) : sp ≠ 0xFF ∧ v = sp + 1 := by
  unfold stackUp at h
  split at h
  · cases h
  · rename_i hs
    cases h; exact ⟨hs, rfl⟩

theorem stackUp_error {sp : Byte} {e : Stop} (h : stackUp sp = .error e) :
    sp = 0xFF ∧ e = .fault (.stackBounds 0xFF) := by
  unfold stackUp at h
  split at h
  · rename_i hs
    cases h; exact ⟨hs, rfl⟩
  · cases h

-- The ALU

theorem narrow_of_fits {m : OvfMode} {n : Nat} (h : m = .wrap ∨ n ≤ 255) : narrow m n = .ok (.value (trunc8 n)) := by
  refine if_neg fun hm => ?_
  rcases h with h | h
  · rw [h] at hm
    cases hm.1
  · omega

theorem narrow_ok {m : OvfMode} {n : Nat} {r : AluResult} (h : narrow m n = .ok r) :
    (m = .wrap ∨ n ≤ 255) ∧ r = .value (trunc8 n) := by
  unfold narrow at h
  split at h
  · cases h
  · rename_i hm
    cases h
    refine ⟨?_, rfl⟩
    cases m
    · exact .inl rfl
    · exact .inr (by simpa using hm)

theorem narrow_error {m : OvfMode} {n : Nat} {e : Stop} (h : narrow m n = .error e) :
    m = .fault ∧ 255 < n ∧ e = .fault (.resultOverflow (trunc8 n)) := by
  unfold narrow at h
  split at h
  · rename_i hm
    cases h; exact ⟨hm.1, hm.2, rfl⟩
  · cases h

/-- CMP's flags are one of E, G, L (spec/40_alu.md R75). -/
theorem compareFlags_cases (x y : Byte) : compareFlags x y = 1 ∨ compareFlags x y = 2 ∨ compareFlags x y = 4 := by
  unfold compareFlags
  split
  · exact .inl rfl
  · split
    · exact .inr (.inl rfl)
    · exact .inr (.inr rfl)

end Sys2Proof.Machine
end

