-- ==== Sys2Proof/Laws/Exec.lean ====
section
/-!
SUPPORT. What each instruction can do: a handler that answers a next state either completed, with exactly the effect named,
or took one of the faults that spec/60_exceptions.md R141 lists for it.
-/

namespace Sys2Proof.Machine

/-- A fault whose code is listed, 3 only with an illegal byte among the register operands, 7 only under
GPR_RESET = unwritten and 8 only under OVF_MODE = fault (R141). -/
def allowedFault (s : State) (operands : List Byte) (codes : List (BitVec 4)) (f : CoreFault) : Prop :=
  f.code ∈ codes ∧ (f.code = 3 → ∃ b ∈ operands, 7 < b.toNat) ∧
  (f.code = 7 → s.params.gprReset = .unwritten) ∧ (f.code = 8 → s.params.ovfMode = .fault)

/-- `t` is `s` after one of the listed faults. -/
def tookFault (s : State) (operands : List Byte) (codes : List (BitVec 4)) (t : State) : Prop :=
  ∃ f, t = s.raise f ∧ allowedFault s operands codes f

/-- A fault whose code needs no condition. -/
theorem allowedFault_of_code {s : State} {operands : List Byte} {codes : List (BitVec 4)} {f : CoreFault} {c : BitVec 4}
    (hf : f.code = c) (hc : c ∈ codes) (h3 : c ≠ 3) (h7 : c ≠ 7) (h8 : c ≠ 8) : allowedFault s operands codes f := by
  subst hf
  exact ⟨hc, fun h => absurd h h3, fun h => absurd h h7, fun h => absurd h h8⟩

/-- A fault leaves everything but RUN, FCAUSE and FINFO (R143). -/
theorem tookFault_frame {s t : State} {operands : List Byte} {codes : List (BitVec 4)} (h : tookFault s operands codes t) :
    (∀ written, s.regsKeptBut t written) ∧ s.flagsKept t ∧ s.memKept t ∧ s.outputKept t ∧ s.statusKept t := by
  obtain ⟨f, rfl, -⟩ := h
  exact ⟨fun _ _ _ => ⟨rfl, rfl⟩, ⟨rfl, rfl⟩, fun _ => rfl, ⟨rfl, rfl⟩, rfl, rfl, rfl, .inl rfl⟩

/-- A handler answers next: it completed, or took a listed fault, given that every fault it can stop with is listed. -/
theorem finish_cases {s t : State} {r : Except Stop State} {operands : List Byte} {codes : List (BitVec 4)}
    (hstop : ∀ f, r = .error (.fault f) → allowedFault s operands codes f) (h : finish s r = .next t) :
    r = .ok t ∨ tookFault s operands codes t := by
  rcases finish_next h with h | ⟨f, hf, rfl⟩
  · exact .inl h
  · exact .inr ⟨f, rfl, hstop f hf⟩

-- The faults of the shared operations

section faults
variable {s : State} {operands : List Byte} {codes : List (BitVec 4)} {f : CoreFault}

theorem regOperand_fault {b : Byte} (hc : (3 : BitVec 4) ∈ codes) (hb : b ∈ operands)
    (h : regOperand b = .error (.fault f)) : allowedFault s operands codes f := by
  obtain ⟨hgt, h⟩ := regOperand_error h
  cases h
  exact ⟨hc, fun _ => ⟨b, hb, hgt⟩, fun h => absurd h (by decide : (3 : BitVec 4) ≠ 7),
    fun h => absurd h (by decide : (3 : BitVec 4) ≠ 8)⟩

theorem readReg_fault {r : Reg} (hc : (7 : BitVec 4) ∈ codes) (h : readReg s r = .error (.fault f)) :
    allowedFault s operands codes f := by
  obtain ⟨hu, h⟩ := readReg_error h
  cases h
  refine ⟨hc, fun h => absurd h (by decide : (7 : BitVec 4) ≠ 3), fun _ => ?_,
    fun h => absurd h (by decide : (7 : BitVec 4) ≠ 8)⟩
  unfold State.unwritten at hu
  simp only [Bool.and_eq_true, beq_iff_eq] at hu
  exact hu.1

theorem readE_fault (hc : (6 : BitVec 4) ∈ codes) (h : readE s = .error (.fault f)) :
    allowedFault s operands codes f := by
  obtain ⟨-, h⟩ := readE_error h
  cases h
  exact allowedFault_of_code rfl hc (by decide) (by decide) (by decide)

theorem pcPlus_fault {k : Nat} (hc : (4 : BitVec 4) ∈ codes) (h : s.pcPlus k = .error (.fault f)) :
    allowedFault s operands codes f := by
  obtain ⟨-, h⟩ := pcPlus_error h
  cases h
  exact allowedFault_of_code (c := 4) rfl hc (by decide) (by decide) (by decide)

theorem stackDown_fault {sp : Byte} (hc : (5 : BitVec 4) ∈ codes) (h : stackDown sp = .error (.fault f)) :
    allowedFault s operands codes f := by
  obtain ⟨-, h⟩ := stackDown_error h
  cases h
  exact allowedFault_of_code rfl hc (by decide) (by decide) (by decide)

theorem stackUp_fault {sp : Byte} (hc : (5 : BitVec 4) ∈ codes) (h : stackUp sp = .error (.fault f)) :
    allowedFault s operands codes f := by
  obtain ⟨-, h⟩ := stackUp_error h
  cases h
  exact allowedFault_of_code rfl hc (by decide) (by decide) (by decide)

theorem narrow_fault {n : Nat} (hc : (8 : BitVec 4) ∈ codes) (h : narrow s.params.ovfMode n = .error (.fault f)) :
    allowedFault s operands codes f := by
  obtain ⟨hm, -, h⟩ := narrow_error h
  cases h
  exact ⟨hc, fun h => absurd h (by decide : (8 : BitVec 4) ≠ 3), fun h => absurd h (by decide : (8 : BitVec 4) ≠ 7),
    fun _ => hm⟩

end faults

-- The ALU

/-- The operations that read both registers. -/
theorem aluOperands_binary {tag : AluTag} {a b : Reg} {s : State} (h1 : tag ≠ .not) (h2 : tag ≠ .unsupported) :
    aluOperands tag a b s = (readReg s a >>= fun x => readReg s b >>= fun y => .ok (x, y)) := by
  cases tag <;> first | rfl | exact absurd rfl h1 | exact absurd rfl h2

/-- A binary operation that completes read two written registers, and wrote back its result. -/
theorem aluApply_ok {tag : AluTag} {a b : Reg} {s t : State} (h1 : tag ≠ .not) (h2 : tag ≠ .unsupported)
    (h : aluApply tag a b s = .ok t) :
    s.unwritten a = false ∧ s.unwritten b = false ∧
      ∃ r, aluResult s.params.ovfMode tag (s.reg a) (s.reg b) = .ok r ∧ t = aluWriteBack a s r := by
  unfold aluApply at h
  rw [aluOperands_binary h1 h2] at h
  obtain ⟨⟨x, y⟩, hxy, h⟩ := bind_eq_ok h
  obtain ⟨x', hx, hxy⟩ := bind_eq_ok hxy
  obtain ⟨y', hy, hxy⟩ := bind_eq_ok hxy
  obtain ⟨ha, rfl⟩ := readReg_ok hx
  obtain ⟨hb, rfl⟩ := readReg_ok hy
  cases hxy
  obtain ⟨r, hr, h⟩ := bind_eq_ok h
  cases h
  exact ⟨ha, hb, r, hr, rfl⟩

/-- A binary operation that stops with a fault: an unwritten register, or the fault of its result. -/
theorem aluApply_fault {tag : AluTag} {a b : Reg} {s : State} {f : CoreFault} {operands : List Byte}
    {codes : List (BitVec 4)} (h1 : tag ≠ .not) (h2 : tag ≠ .unsupported) (hc : (7 : BitVec 4) ∈ codes)
    (hr : ∀ x y, aluResult s.params.ovfMode tag x y = .error (.fault f) → allowedFault s operands codes f)
    (h : aluApply tag a b s = .error (.fault f)) : allowedFault s operands codes f := by
  unfold aluApply at h
  rw [aluOperands_binary h1 h2] at h
  rcases bind_eq_error h with h | ⟨⟨x, y⟩, -, h⟩
  · rcases bind_eq_error h with h | ⟨x, -, h⟩
    · exact readReg_fault hc h
    · rcases bind_eq_error h with h | ⟨y, -, h⟩
      · exact readReg_fault hc h
      · cases h
  · rcases bind_eq_error h with h | ⟨r, -, h⟩
    · exact hr x y h
    · cases h

/-- The handlers of ADD, MUL and CMP: the ALU operation, then an advance by 3. -/
theorem aluAndAdvance_ok {tag : AluTag} {x y : Byte} {s t : State} (h1 : tag ≠ .not) (h2 : tag ≠ .unsupported)
    (h : aluAndAdvance tag x y s = .ok t) :
    ∃ a b r p, x = regByte a ∧ y = regByte b ∧ s.unwritten a = false ∧ s.unwritten b = false ∧
      aluResult s.params.ovfMode tag (s.reg a) (s.reg b) = .ok r ∧ p.toNat = s.pc.toNat + 3 ∧
      t = (aluWriteBack a s r).setPc p := by
  obtain ⟨a, ha, h⟩ := bind_eq_ok h
  obtain ⟨b, hb, h⟩ := bind_eq_ok h
  obtain ⟨u, hu, h⟩ := bind_eq_ok h
  obtain ⟨p, hp, h⟩ := bind_eq_ok h
  obtain ⟨wa, wb, r, hr, rfl⟩ := aluApply_ok h1 h2 hu
  cases h
  exact ⟨a, b, r, p, regOperand_ok ha, regOperand_ok hb, wa, wb, hr, (pcPlus_ok hp).2, rfl⟩

theorem aluAndAdvance_fault {tag : AluTag} {x y : Byte} {s : State} {f : CoreFault} {operands : List Byte}
    {codes : List (BitVec 4)} (h1 : tag ≠ .not) (h2 : tag ≠ .unsupported) (h3 : (3 : BitVec 4) ∈ codes) (hx : x ∈ operands)
    (hy : y ∈ operands) (h4 : (4 : BitVec 4) ∈ codes)
    (h7 : (7 : BitVec 4) ∈ codes)
    (hr : ∀ x y, aluResult s.params.ovfMode tag x y = .error (.fault f) → allowedFault s operands codes f)
    (h : aluAndAdvance tag x y s = .error (.fault f)) : allowedFault s operands codes f := by
  rcases bind_eq_error h with h | ⟨a, -, h⟩
  · exact regOperand_fault h3 hx h
  rcases bind_eq_error h with h | ⟨b, -, h⟩
  · exact regOperand_fault h3 hy h
  rcases bind_eq_error h with h | ⟨u, -, h⟩
  · exact aluApply_fault h1 h2 h7 hr h
  rcases bind_eq_error h with h | ⟨p, -, h⟩
  · exact pcPlus_fault h4 h
  · cases h

-- Each instruction

/-- ADD (spec/40_alu.md R72). -/
theorem execAdd_cases {x y : Byte} {s t : State} (h : execAdd x y s = .next t) :
    (∃ a b p, x = regByte a ∧ y = regByte b ∧ s.unwritten a = false ∧ s.unwritten b = false ∧
      (s.params.ovfMode = .wrap ∨ (s.reg a).toNat + (s.reg b).toNat ≤ 255) ∧ p.toNat = s.pc.toNat + 3 ∧
      t = (s.writeReg a (trunc8 ((s.reg a).toNat + (s.reg b).toNat))).setPc p) ∨
    tookFault s [x, y] [3, 4, 7, 8] t := by
  refine (finish_cases (fun f hf => ?_) h).imp_left fun h => ?_
  · exact aluAndAdvance_fault (tag := .add) (by decide) (by decide) (by decide) (by simp) (by simp) (by decide) (by decide)
      (fun x y h => narrow_fault (n := x.toNat + y.toNat) (by decide) h) hf
  · obtain ⟨a, b, r, p, hx, hy, wa, wb, hr, hp, rfl⟩ := aluAndAdvance_ok (by decide) (by decide) h
    obtain ⟨hm, rfl⟩ := narrow_ok hr
    exact ⟨a, b, p, hx, hy, wa, wb, hm, hp, rfl⟩

/-- MUL (R74). -/
theorem execMul_cases {x y : Byte} {s t : State} (h : execMul x y s = .next t) :
    (∃ a b p, x = regByte a ∧ y = regByte b ∧ s.unwritten a = false ∧ s.unwritten b = false ∧
      (s.params.ovfMode = .wrap ∨ (s.reg a).toNat * (s.reg b).toNat ≤ 255) ∧ p.toNat = s.pc.toNat + 3 ∧
      t = (s.writeReg a (trunc8 ((s.reg a).toNat * (s.reg b).toNat))).setPc p) ∨
    tookFault s [x, y] [3, 4, 7, 8] t := by
  refine (finish_cases (fun f hf => ?_) h).imp_left fun h => ?_
  · exact aluAndAdvance_fault (tag := .mul) (by decide) (by decide) (by decide) (by simp) (by simp) (by decide) (by decide)
      (fun x y h => narrow_fault (n := x.toNat * y.toNat) (by decide) h) hf
  · obtain ⟨a, b, r, p, hx, hy, wa, wb, hr, hp, rfl⟩ := aluAndAdvance_ok (by decide) (by decide) h
    obtain ⟨hm, rfl⟩ := narrow_ok hr
    exact ⟨a, b, p, hx, hy, wa, wb, hm, hp, rfl⟩

/-- CMP (R75). -/
theorem execCmp_cases {x y : Byte} {s t : State} (h : execCmp x y s = .next t) :
    (∃ a b p, x = regByte a ∧ y = regByte b ∧ s.unwritten a = false ∧ s.unwritten b = false ∧
      p.toNat = s.pc.toNat + 3 ∧ t = (s.setFlags (compareFlags (s.reg a) (s.reg b))).setPc p) ∨
    tookFault s [x, y] [3, 4, 7] t := by
  refine (finish_cases (fun f hf => ?_) h).imp_left fun h => ?_
  · exact aluAndAdvance_fault (by decide) (by decide) (by decide) (by simp) (by simp) (by decide) (by decide)
      (fun _ _ h => by cases h) hf
  · obtain ⟨a, b, r, p, hx, hy, wa, wb, hr, hp, rfl⟩ := aluAndAdvance_ok (by decide) (by decide) h
    cases hr
    exact ⟨a, b, p, hx, hy, wa, wb, hp, rfl⟩

/-- AND (R73): no advance. -/
theorem execAnd_cases {x y : Byte} {s t : State} (h : execAnd x y s = .next t) :
    (∃ a b, x = regByte a ∧ y = regByte b ∧ s.unwritten a = false ∧ s.unwritten b = false ∧
      t = s.writeReg a (s.reg a &&& s.reg b)) ∨
    tookFault s [x, y] [3, 7] t := by
  refine (finish_cases (fun f hf => ?_) h).imp_left fun h => ?_
  · rcases bind_eq_error hf with h | ⟨a, -, h⟩
    · exact regOperand_fault (by decide) (by simp) h
    rcases bind_eq_error h with h | ⟨b, -, h⟩
    · exact regOperand_fault (by decide) (by simp) h
    · exact aluApply_fault (by decide) (by decide) (by decide) (fun _ _ h => by cases h) h
  · obtain ⟨a, ha, h⟩ := bind_eq_ok h
    obtain ⟨b, hb, h⟩ := bind_eq_ok h
    obtain ⟨wa, wb, r, hr, rfl⟩ := aluApply_ok (by decide) (by decide) h
    cases hr
    exact ⟨a, b, regOperand_ok ha, regOperand_ok hb, wa, wb, rfl⟩

/-- LDI (spec/41_data_movement_io.md R90). -/
theorem execLdi_cases {x v : Byte} {s t : State} (h : execLdi x v s = .next t) :
    (∃ a p, x = regByte a ∧ p.toNat = s.pc.toNat + 3 ∧ t = (s.writeReg a v).setPc p) ∨ tookFault s [x] [3, 4] t := by
  refine (finish_cases (fun f hf => ?_) h).imp_left fun h => ?_
  · rcases bind_eq_error hf with h | ⟨a, -, h⟩
    · exact regOperand_fault (by decide) (by simp) h
    rcases bind_eq_error h with h | ⟨p, -, h⟩
    · exact pcPlus_fault (by decide) h
    · cases h
  · obtain ⟨a, ha, h⟩ := bind_eq_ok h
    obtain ⟨p, hp, h⟩ := bind_eq_ok h
    cases h
    exact ⟨a, p, regOperand_ok ha, (pcPlus_ok hp).2, rfl⟩

/-- ST (R91): no advance. -/
theorem execSt_cases {x y : Byte} {s t : State} (h : execSt x y s = .next t) :
    (∃ a b, x = regByte a ∧ y = regByte b ∧ s.unwritten a = false ∧ s.unwritten b = false ∧
      t = s.writeMem (s.reg b) (s.reg a)) ∨
    tookFault s [x, y] [3, 7] t := by
  refine (finish_cases (fun f hf => ?_) h).imp_left fun h => ?_
  · rcases bind_eq_error hf with h | ⟨a, -, h⟩
    · exact regOperand_fault (by decide) (by simp) h
    rcases bind_eq_error h with h | ⟨b, -, h⟩
    · exact regOperand_fault (by decide) (by simp) h
    rcases bind_eq_error h with h | ⟨v, -, h⟩
    · exact readReg_fault (by decide) h
    rcases bind_eq_error h with h | ⟨v, -, h⟩
    · exact readReg_fault (by decide) h
    · cases h
  · obtain ⟨a, ha, h⟩ := bind_eq_ok h
    obtain ⟨b, hb, h⟩ := bind_eq_ok h
    obtain ⟨v, hv, h⟩ := bind_eq_ok h
    obtain ⟨w, hw, h⟩ := bind_eq_ok h
    obtain ⟨wa, rfl⟩ := readReg_ok hv
    obtain ⟨wb, rfl⟩ := readReg_ok hw
    cases h
    exact ⟨a, b, regOperand_ok ha, regOperand_ok hb, wa, wb, rfl⟩

/-- PRN (R92). -/
theorem execPrn_cases {x : Byte} {s t : State} (h : execPrn x s = .next t) :
    (∃ a p, x = regByte a ∧ s.unwritten a = false ∧ p.toNat = s.pc.toNat + 2 ∧ t = (s.emit (s.reg a)).setPc p) ∨
    tookFault s [x] [3, 4, 7] t := by
  refine (finish_cases (fun f hf => ?_) h).imp_left fun h => ?_
  · rcases bind_eq_error hf with h | ⟨a, -, h⟩
    · exact regOperand_fault (by decide) (by simp) h
    rcases bind_eq_error h with h | ⟨v, -, h⟩
    · exact readReg_fault (by decide) h
    rcases bind_eq_error h with h | ⟨p, -, h⟩
    · exact pcPlus_fault (by decide) h
    · cases h
  · obtain ⟨a, ha, h⟩ := bind_eq_ok h
    obtain ⟨v, hv, h⟩ := bind_eq_ok h
    obtain ⟨p, hp, h⟩ := bind_eq_ok h
    obtain ⟨wa, rfl⟩ := readReg_ok hv
    cases h
    exact ⟨a, p, regOperand_ok ha, wa, (pcPlus_ok hp).2, rfl⟩

/-- PUSH (spec/42_stack.md R101): the value is read after the decrement. -/
theorem execPush_cases {x : Byte} {s t : State} (h : execPush x s = .next t) :
    (∃ a p, x = regByte a ∧ s.unwritten a = false ∧ s.sp ≠ 0x00 ∧ p.toNat = s.pc.toNat + 2 ∧
      t = (s.pushAt (s.sp - 1) ((s.setSp (s.sp - 1)).reg a)).setPc p) ∨
    tookFault s [x] [3, 4, 5, 7] t := by
  refine (finish_cases (fun f hf => ?_) h).imp_left fun h => ?_
  · rcases bind_eq_error hf with h | ⟨a, -, h⟩
    · exact regOperand_fault (by decide) (by simp) h
    rcases bind_eq_error h with h | ⟨v, -, h⟩
    · exact readReg_fault (by decide) h
    rcases bind_eq_error h with h | ⟨sp, -, h⟩
    · exact stackDown_fault (by decide) h
    rcases bind_eq_error h with h | ⟨p, -, h⟩
    · exact pcPlus_fault (by decide) h
    · cases h
  · obtain ⟨a, ha, h⟩ := bind_eq_ok h
    obtain ⟨v, hv, h⟩ := bind_eq_ok h
    obtain ⟨sp, hsp, h⟩ := bind_eq_ok h
    obtain ⟨p, hp, h⟩ := bind_eq_ok h
    obtain ⟨hs, rfl⟩ := stackDown_ok hsp
    cases h
    exact ⟨a, p, regOperand_ok ha, (readReg_ok hv).1, hs, (pcPlus_ok hp).2, rfl⟩

/-- POP (R102): SP is read after the write of the register. -/
theorem execPop_cases {x : Byte} {s t : State} (h : execPop x s = .next t) :
    (∃ a p, x = regByte a ∧ (s.writeReg a (s.readMem s.sp)).sp ≠ 0xFF ∧ p.toNat = s.pc.toNat + 2 ∧
      t = ((s.writeReg a (s.readMem s.sp)).setSp ((s.writeReg a (s.readMem s.sp)).sp + 1)).setPc p) ∨
    tookFault s [x] [3, 4, 5] t := by
  refine (finish_cases (fun f hf => ?_) h).imp_left fun h => ?_
  · rcases bind_eq_error hf with h | ⟨a, -, h⟩
    · exact regOperand_fault (by decide) (by simp) h
    rcases bind_eq_error h with h | ⟨sp, -, h⟩
    · exact stackUp_fault (by decide) h
    rcases bind_eq_error h with h | ⟨p, -, h⟩
    · exact pcPlus_fault (by decide) h
    · cases h
  · obtain ⟨a, ha, h⟩ := bind_eq_ok h
    obtain ⟨sp, hsp, h⟩ := bind_eq_ok h
    obtain ⟨p, hp, h⟩ := bind_eq_ok h
    obtain ⟨hs, rfl⟩ := stackUp_ok hsp
    cases h
    exact ⟨a, p, regOperand_ok ha, hs, (pcPlus_ok hp).2, rfl⟩

/-- JMP (spec/43_control_flow.md R111). -/
theorem execJmp_cases {x : Byte} {s t : State} (h : execJmp x s = .next t) :
    (∃ a, x = regByte a ∧ s.unwritten a = false ∧ t = s.setPc (s.reg a)) ∨ tookFault s [x] [3, 7] t := by
  refine (finish_cases (fun f hf => ?_) h).imp_left fun h => ?_
  · rcases bind_eq_error hf with h | ⟨a, -, h⟩
    · exact regOperand_fault (by decide) (by simp) h
    rcases bind_eq_error h with h | ⟨v, -, h⟩
    · exact readReg_fault (by decide) h
    · cases h
  · obtain ⟨a, ha, h⟩ := bind_eq_ok h
    obtain ⟨v, hv, h⟩ := bind_eq_ok h
    obtain ⟨wa, rfl⟩ := readReg_ok hv
    cases h
    exact ⟨a, regOperand_ok ha, wa, rfl⟩

/-- The handler of JEQ and JNE (R112, R113). -/
theorem jumpIf_cases {taken : Bool → Bool} {x : Byte} {s t : State} (h : finish s (jumpIf taken x s) = .next t) :
    (∃ a, x = regByte a ∧ s.flv = true ∧
      ((taken s.flagE = true ∧ s.unwritten a = false ∧ t = s.setPc (s.reg a)) ∨
       (taken s.flagE = false ∧ ∃ p, p.toNat = s.pc.toNat + 2 ∧ t = s.setPc p))) ∨
    tookFault s [x] [3, 4, 6, 7] t := by
  refine (finish_cases (fun f hf => ?_) h).imp_left fun h => ?_
  · rcases bind_eq_error hf with h | ⟨a, -, h⟩
    · exact regOperand_fault (by decide) (by simp) h
    rcases bind_eq_error h with h | ⟨e, -, h⟩
    · exact readE_fault (by decide) h
    split at h
    · rcases bind_eq_error h with h | ⟨v, -, h⟩
      · exact readReg_fault (by decide) h
      · cases h
    · rcases bind_eq_error h with h | ⟨p, -, h⟩
      · exact pcPlus_fault (by decide) h
      · cases h
  · obtain ⟨a, ha, h⟩ := bind_eq_ok h
    obtain ⟨e, he, h⟩ := bind_eq_ok h
    obtain ⟨hf, rfl⟩ := readE_ok he
    refine ⟨a, regOperand_ok ha, hf, ?_⟩
    split at h
    · rename_i ht
      obtain ⟨v, hv, h⟩ := bind_eq_ok h
      obtain ⟨wa, rfl⟩ := readReg_ok hv
      cases h
      exact .inl ⟨ht, wa, rfl⟩
    · rename_i ht
      obtain ⟨p, hp, h⟩ := bind_eq_ok h
      cases h
      exact .inr ⟨by simpa using ht, p, (pcPlus_ok hp).2, rfl⟩

/-- CALL (R114): the target is read after the decrement. -/
theorem execCall_cases {x : Byte} {s t : State} (h : execCall x s = .next t) :
    (∃ a p, x = regByte a ∧ s.unwritten a = false ∧ s.sp ≠ 0x00 ∧ p.toNat = s.pc.toNat + 2 ∧
      t = (s.pushAt (s.sp - 1) p).setPc ((s.setSp (s.sp - 1)).reg a)) ∨
    tookFault s [x] [3, 4, 5, 7] t := by
  refine (finish_cases (fun f hf => ?_) h).imp_left fun h => ?_
  · rcases bind_eq_error hf with h | ⟨a, -, h⟩
    · exact regOperand_fault (by decide) (by simp) h
    rcases bind_eq_error h with h | ⟨v, -, h⟩
    · exact readReg_fault (by decide) h
    rcases bind_eq_error h with h | ⟨sp, -, h⟩
    · exact stackDown_fault (by decide) h
    rcases bind_eq_error h with h | ⟨p, -, h⟩
    · exact pcPlus_fault (by decide) h
    · cases h
  · obtain ⟨a, ha, h⟩ := bind_eq_ok h
    obtain ⟨v, hv, h⟩ := bind_eq_ok h
    obtain ⟨sp, hsp, h⟩ := bind_eq_ok h
    obtain ⟨p, hp, h⟩ := bind_eq_ok h
    obtain ⟨hs, rfl⟩ := stackDown_ok hsp
    cases h
    exact ⟨a, p, regOperand_ok ha, (readReg_ok hv).1, hs, (pcPlus_ok hp).2, rfl⟩

/-- RET (R115). -/
theorem execRet_cases {s t : State} (h : execRet s = .next t) :
    (s.sp ≠ 0xFF ∧ t = (s.setSp (s.sp + 1)).setPc (s.readMem s.sp)) ∨ tookFault s [] [5] t := by
  refine (finish_cases (fun f hf => ?_) h).imp_left fun h => ?_
  · rcases bind_eq_error hf with h | ⟨sp, -, h⟩
    · exact stackUp_fault (by decide) h
    · cases h
  · obtain ⟨sp, hsp, h⟩ := bind_eq_ok h
    obtain ⟨hs, rfl⟩ := stackUp_ok hsp
    cases h
    exact ⟨hs, rfl⟩

/-- HLT (spec/44_halt_and_run_loop.md R120). -/
theorem execHlt_cases {s t : State} (h : execHlt s = .next t) : t = s := by
  cases h
  rfl

/-- Whatever the instruction: it completed and left RUN and HCAUSE, or took a fault that R141 lists for it. -/
theorem exec_completes_or_faults {i : Instr} {s t : State} (h : exec i s = .next t) :
    (t.run = s.run ∧ t.hcause = s.hcause) ∨ tookFault s i.regOperands (handlerFaultCodes i) t := by
  cases i with
  | add x y => exact (execAdd_cases h).imp_left (by rintro ⟨_, _, _, _, _, _, _, _, _, rfl⟩; exact ⟨rfl, rfl⟩)
  | and x y => exact (execAnd_cases h).imp_left (by rintro ⟨_, _, _, _, _, _, rfl⟩; exact ⟨rfl, rfl⟩)
  | mul x y => exact (execMul_cases h).imp_left (by rintro ⟨_, _, _, _, _, _, _, _, _, rfl⟩; exact ⟨rfl, rfl⟩)
  | cmp x y => exact (execCmp_cases h).imp_left (by rintro ⟨_, _, _, _, _, _, _, _, rfl⟩; exact ⟨rfl, rfl⟩)
  | ldi x y => exact (execLdi_cases h).imp_left (by rintro ⟨_, _, _, _, rfl⟩; exact ⟨rfl, rfl⟩)
  | st x y => exact (execSt_cases h).imp_left (by rintro ⟨_, _, _, _, _, _, rfl⟩; exact ⟨rfl, rfl⟩)
  | prn x => exact (execPrn_cases h).imp_left (by rintro ⟨_, _, _, _, _, rfl⟩; exact ⟨rfl, rfl⟩)
  | push x => exact (execPush_cases h).imp_left (by rintro ⟨_, _, _, _, _, _, rfl⟩; exact ⟨rfl, rfl⟩)
  | pop x => exact (execPop_cases h).imp_left (by rintro ⟨_, _, _, _, _, rfl⟩; exact ⟨rfl, rfl⟩)
  | jmp x => exact (execJmp_cases h).imp_left (by rintro ⟨_, _, _, rfl⟩; exact ⟨rfl, rfl⟩)
  | jeq x => exact (jumpIf_cases h).imp_left (by rintro ⟨_, _, _, ⟨_, _, rfl⟩ | ⟨_, _, _, rfl⟩⟩ <;> exact ⟨rfl, rfl⟩)
  | jne x => exact (jumpIf_cases h).imp_left (by rintro ⟨_, _, _, ⟨_, _, rfl⟩ | ⟨_, _, _, rfl⟩⟩ <;> exact ⟨rfl, rfl⟩)
  | call x => exact (execCall_cases h).imp_left (by rintro ⟨_, _, _, _, _, _, rfl⟩; exact ⟨rfl, rfl⟩)
  | ret => exact (execRet_cases h).imp_left (by rintro ⟨_, rfl⟩; exact ⟨rfl, rfl⟩)
  | hlt => cases execHlt_cases h; exact .inl ⟨rfl, rfl⟩

-- Steps

/-- What one step is: a cycle that settles without a handler, or one handler (R122). -/
theorem step_settle {s t : State} (h : planCycle s = .settle t) : step s = .next t := by
  unfold step
  rw [h]

theorem step_execute {s t : State} {i : Instr} (h : planCycle s = .execute i t) : step s = exec i t := by
  unfold step
  rw [h]

/-- A ready machine fetches, on the state at the beginning of the cycle (R121). -/
theorem planCycle_ready {s : State} (h : s.ready) : planCycle s = fetchCycle s.beginCycle := by
  obtain ⟨hrun, hrst, habort, hcancel⟩ := h
  simp [planCycle, runningCycle, hrun, hrst, habort, hcancel]

/-- The fetch window by how far `pc` is from the top of memory (spec/30_encoding.md R51). -/
theorem fetchWindow_eq (s : State) :
    s.fetchWindow =
      if s.pc.toNat + 2 ≤ 255 then [s.byteAt 0, s.byteAt 1, s.byteAt 2]
      else if s.pc.toNat + 1 ≤ 255 then [s.byteAt 0, s.byteAt 1] else [s.byteAt 0] := by
  have hpc : s.pc.toNat ≤ 255 := by omega
  unfold State.fetchWindow
  have hr : List.range 3 = [0, 1, 2] := rfl
  rw [hr]
  split
  · rename_i h
    have h1 : s.pc.toNat + 1 ≤ 255 := by omega
    simp [State.byteAt, h, h1, hpc]
  · rename_i h
    split
    · rename_i h1
      simp [State.byteAt, h, h1, hpc]
    · rename_i h1
      simp [State.byteAt, h, h1, hpc]

end Sys2Proof.Machine
end

