-- ==== Sys2Proof/Laws/Cycle.lean ====
section
/-!
SUPPORT. What a whole cycle comes to, by the format of the opcode at `pc` (spec/30_encoding.md R52, R63): the operand fetch
is settled here once, so that a claim about a cycle needs only what the handler answers.
-/

namespace Sys2Proof.Machine

/-- A ready cycle whose bytes decode runs the handler. -/
theorem step_of_decode {s : State} {i : Instr} {rest : List Byte} (h : s.ready)
    (hd : decode s.params.op84 s.fetchWindow = .ok (i, rest)) : step s = exec i s.beginCycle := by
  refine step_execute ?_
  rw [planCycle_ready h]
  unfold fetchCycle
  have : decode s.beginCycle.params.op84 s.beginCycle.fetchWindow = .ok (i, rest) := hd
  rw [this]

/-- A ready cycle whose bytes do not decode takes the fault of the fetch. -/
theorem step_of_decode_error {s : State} {e : DecodeError} (h : s.ready)
    (hd : decode s.params.op84 s.fetchWindow = .error e) :
    step s = .next (s.beginCycle.raise (fetchFault s e)) := by
  refine step_settle ?_
  rw [planCycle_ready h]
  unfold fetchCycle
  have : decode s.beginCycle.params.op84 s.beginCycle.fetchWindow = .error e := hd
  rw [this]
  rfl

/-- A ready cycle runs one handler, or takes the fault of its fetch: code 1 or 4. -/
theorem step_ready {s : State} (h : s.ready) :
    (∃ i rest, decode s.params.op84 s.fetchWindow = .ok (i, rest) ∧ step s = exec i s.beginCycle) ∨
    (∃ f : CoreFault, (f.code = 1 ∨ f.code = 4) ∧ step s = .next (s.beginCycle.raise f)) := by
  cases hd : decode s.params.op84 s.fetchWindow with
  | ok p => exact .inl ⟨p.1, p.2, rfl, step_of_decode h hd⟩
  | error e =>
    refine .inr ⟨_, ?_, step_of_decode_error h hd⟩
    cases e
    · exact .inl rfl
    · exact .inr rfl

/-- A running machine at whose boundaries neither reset nor a stop request comes is ready. -/
theorem ready_of_quiet {s : State} (hs : s.run = .running)
    (hp : ∀ p ∈ s.inputs, p.rst = false ∧ p.abort = false ∧ p.cancel = false) : s.ready := by
  refine ⟨hs, ?_⟩
  unfold State.pins
  cases hi : s.inputs with
  | nil => exact ⟨rfl, rfl, rfl⟩
  | cons p l => exact hp p (by simp [hi])

/-- A run goes on from the next state. -/
theorem run_succ_of_next {M : Host.Core} {n : Nat} {s t : M.State} (h : M.step s = .next t) :
    M.run (n + 1) s = M.run n t := by
  rw [Host.Core.run, h]

/-- The same for this machine. -/
theorem core_run_succ {n : Nat} {s t : State} (h : step s = .next t) : core.run (n + 1) s = core.run n t :=
  run_succ_of_next (M := core) h

theorem core_run_zero (s : State) : core.run 0 s = .next s := rfl

/-- Format Z. -/
theorem step_formatZ {s : State} {i : Instr} (h : s.ready)
    (hd : ∀ rest, decode s.params.op84 (s.byteAt 0 :: rest) = decodeZ i rest) : step s = exec i s.beginCycle := by
  have hw : ∃ rest, s.fetchWindow = s.byteAt 0 :: rest := by
    rw [fetchWindow_eq]
    split
    · exact ⟨_, rfl⟩
    · split <;> exact ⟨_, rfl⟩
  obtain ⟨rest, hw⟩ := hw
  exact step_of_decode h (by rw [hw, hd]; rfl)

/-- Format R: `answer` is what the handler answers for each register. -/
theorem step_formatR {s : State} {mk : Byte → Instr} {answer : State → Reg → State} (h : s.ready)
    (hd : ∀ rest, decode s.params.op84 (s.byteAt 0 :: rest) = decodeR mk rest)
    (hillegal : ∀ u x, 7 < x.toNat → exec (mk x) u = .next (u.faultedBy 3 x))
    (hlegal : ∀ u a, exec (mk (regByte a)) u = .next (answer u a)) :
    step s = .next (cycleR s answer) := by
  unfold cycleR
  by_cases h1 : 255 < s.pc.toNat + 1
  · rw [if_pos h1]
    refine step_of_decode_error (e := .missingByte 1) h ?_
    rw [fetchWindow_eq, if_neg (by omega), if_neg (by omega), hd]
    rfl
  · rw [if_neg h1]
    have hstep : step s = exec (mk (s.byteAt 1)) s.beginCycle := by
      by_cases h2 : s.pc.toNat + 2 ≤ 255
      · exact step_of_decode (rest := [s.byteAt 2]) h (by rw [fetchWindow_eq, if_pos h2, hd]; rfl)
      · exact step_of_decode (rest := []) h (by rw [fetchWindow_eq, if_neg h2, if_pos (by omega), hd]; rfl)
    rw [hstep]
    split
    · rename_i hb
      have := hlegal s.beginCycle ⟨(s.byteAt 1).toNat, hb⟩
      rwa [regByte_of_lt hb] at this
    · rename_i hb
      exact hillegal _ _ (by omega)

/-- Formats RI and RR, before the second byte is looked at. -/
theorem step_twoBytes {s : State} {mk : Byte → Byte → Instr} {answer : State → Reg → Byte → State} (h : s.ready)
    (hd : ∀ rest, decode s.params.op84 (s.byteAt 0 :: rest) = decodeRR mk rest)
    (hillegal : ∀ u x y, 7 < x.toNat → exec (mk x y) u = .next (u.faultedBy 3 x))
    (hlegal : ∀ u a y, exec (mk (regByte a) y) u = .next (answer u a y)) :
    step s = .next (cycleRI s answer) := by
  unfold cycleRI
  by_cases h1 : 255 < s.pc.toNat + 1
  · rw [if_pos h1]
    refine step_of_decode_error (e := .missingByte 1) h ?_
    rw [fetchWindow_eq, if_neg (by omega), if_neg (by omega), hd]
    rfl
  · rw [if_neg h1]
    by_cases h2 : 255 < s.pc.toNat + 2
    · rw [if_pos h2]
      refine step_of_decode_error (e := .missingByte 2) h ?_
      rw [fetchWindow_eq, if_neg (by omega), if_pos (by omega), hd]
      rfl
    · rw [if_neg h2]
      have hstep : step s = exec (mk (s.byteAt 1) (s.byteAt 2)) s.beginCycle :=
        step_of_decode (rest := []) h (by rw [fetchWindow_eq, if_pos (by omega), hd]; rfl)
      rw [hstep]
      split
      · rename_i hb
        have := hlegal s.beginCycle ⟨(s.byteAt 1).toNat, hb⟩ (s.byteAt 2)
        rwa [regByte_of_lt hb] at this
      · rename_i hb
        exact hillegal _ _ _ (by omega)

/-- Format RR. -/
theorem step_formatRR {s : State} {mk : Byte → Byte → Instr} {answer : State → Reg → Reg → State} (h : s.ready)
    (hd : ∀ rest, decode s.params.op84 (s.byteAt 0 :: rest) = decodeRR mk rest)
    (hillegalA : ∀ u x y, 7 < x.toNat → exec (mk x y) u = .next (u.faultedBy 3 x))
    (hillegalB : ∀ u a y, 7 < y.toNat → exec (mk (regByte a) y) u = .next (u.faultedBy 3 y))
    (hlegal : ∀ u a b, exec (mk (regByte a) (regByte b)) u = .next (answer u a b)) :
    step s = .next (cycleRR s answer) := by
  refine step_twoBytes h hd hillegalA fun u a y => ?_
  split
  · rename_i hb
    have := hlegal u a ⟨y.toNat, hb⟩
    rwa [regByte_of_lt hb] at this
  · rename_i hb
    exact hillegalB u a y (by omega)

end Sys2Proof.Machine
end

