-- ==== Sys2Proof/Laws/Decode.lean ====
section
/-!
SUPPORT. What the decoder does with an opcode byte, and with the bytes after it.
-/

namespace Sys2Proof.Machine

/-- An opcode byte outside the closed set is reported as unknown, whatever follows (spec/30_encoding.md R56). -/
theorem decodeOpcode_undefined {sel : Op84} {op : Byte} {rest : List Byte} (h : op ∉ definedOpcodes) :
    decodeOpcode sel op rest = .error (.unknownOpcode op) := by
  simp only [definedOpcodes, List.mem_cons, List.not_mem_nil, or_false, not_or] at h
  simp only [decodeOpcode, h, if_false]

/-- A defined opcode byte is dispatched by its format (R52, R54). -/
theorem decodeOpcode_defined {sel : Op84} {op : Byte} (h : op ∈ definedOpcodes) :
    (∃ i, ∀ rest, decodeOpcode sel op rest = decodeZ i rest) ∨
    (∃ mk, ∀ rest, decodeOpcode sel op rest = decodeR mk rest) ∨
    (∃ mk, ∀ rest, decodeOpcode sel op rest = decodeRR mk rest) := by
  simp only [definedOpcodes, List.mem_cons, List.not_mem_nil, or_false] at h
  rcases h with rfl | rfl | rfl | rfl | rfl | rfl | rfl | rfl | rfl | rfl | rfl | rfl | rfl | rfl
  · exact .inl ⟨.hlt, fun _ => rfl⟩
  · exact .inl ⟨.ret, fun _ => rfl⟩
  · exact .inr (.inl ⟨.push, fun _ => rfl⟩)
  · exact .inr (.inl ⟨.pop, fun _ => rfl⟩)
  · exact .inr (.inl ⟨.prn, fun _ => rfl⟩)
  · exact .inr (.inl ⟨.call, fun _ => rfl⟩)
  · exact .inr (.inl ⟨.jmp, fun _ => rfl⟩)
  · exact .inr (.inl ⟨.jeq, fun _ => rfl⟩)
  · exact .inr (.inl ⟨.jne, fun _ => rfl⟩)
  · exact .inr (.inr ⟨.ldi, fun _ => rfl⟩)
  · exact .inr (.inr ⟨decode84 sel, fun _ => rfl⟩)
  · exact .inr (.inr ⟨.add, fun _ => rfl⟩)
  · exact .inr (.inr ⟨.cmp, fun _ => rfl⟩)
  · exact .inr (.inr ⟨.and, fun _ => rfl⟩)

theorem decodeR_ok {mk : Byte → Instr} {bytes rest : List Byte} {i : Instr} (h : decodeR mk bytes = .ok (i, rest)) :
    ∃ a, bytes = a :: rest ∧ i = mk a := by
  match bytes, h with
  | a :: _, h => cases h; exact ⟨a, rfl, rfl⟩

theorem decodeRR_ok {mk : Byte → Byte → Instr} {bytes rest : List Byte} {i : Instr}
    (h : decodeRR mk bytes = .ok (i, rest)) : ∃ a b, bytes = a :: b :: rest ∧ i = mk a b := by
  match bytes, h with
  | a :: b :: _, h => cases h; exact ⟨a, b, rfl, rfl⟩

/-- A defined opcode byte is never reported as unknown. -/
theorem decodeOpcode_ne_unknown {sel : Op84} {op op' : Byte} {rest : List Byte} (h : op ∈ definedOpcodes) :
    decodeOpcode sel op rest ≠ .error (.unknownOpcode op') := by
  rcases decodeOpcode_defined (sel := sel) h with ⟨i, hd⟩ | ⟨mk, hd⟩ | ⟨mk, hd⟩ <;> rw [hd]
  · simp [decodeZ]
  · rcases rest with _ | ⟨a, rest⟩ <;> simp [decodeR]
  · rcases rest with _ | ⟨a, _ | ⟨b, rest⟩⟩ <;> simp [decodeRR]

end Sys2Proof.Machine
end

