-- ==== Sys2Proof/Laws/Equations.lean ====
section
/-!
SUPPORT. What each handler answers on legal register operands, as one conditional in the fault order of
spec/60_exceptions.md R145; on an illegal register operand it answers RegIndexFault.
-/

namespace Sys2Proof.Machine

section equations
variable (x y : Byte) (a b : Reg) (s : State)

theorem execAdd_eq :
    execAdd (regByte a) (regByte b) s =
      if s.unwritten a = true then .next (s.raise (.unwrittenRead a))
      else if s.unwritten b = true then .next (s.raise (.unwrittenRead b))
      else if s.params.ovfMode = .fault ∧ 255 < (s.reg a).toNat + (s.reg b).toNat then
        .next (s.raise (.resultOverflow (trunc8 ((s.reg a).toNat + (s.reg b).toNat))))
      else if 255 < s.pc.toNat + 3 then .next (s.raise (.addressRange (trunc8 (s.pc.toNat + 3))))
      else .next ((s.writeReg a (trunc8 ((s.reg a).toNat + (s.reg b).toNat))).setPc (trunc8 (s.pc.toNat + 3))) := by
  simp only [execAdd, aluAndAdvance, aluApply, aluOperands, aluResult, narrow, readReg, State.pcPlus, aluWriteBack, regOperand_regByte, bind_ok, bind_error,
    bind_ite, finish_ite, finish_ok, finish_fault]

theorem execMul_eq :
    execMul (regByte a) (regByte b) s =
      if s.unwritten a = true then .next (s.raise (.unwrittenRead a))
      else if s.unwritten b = true then .next (s.raise (.unwrittenRead b))
      else if s.params.ovfMode = .fault ∧ 255 < (s.reg a).toNat * (s.reg b).toNat then
        .next (s.raise (.resultOverflow (trunc8 ((s.reg a).toNat * (s.reg b).toNat))))
      else if 255 < s.pc.toNat + 3 then .next (s.raise (.addressRange (trunc8 (s.pc.toNat + 3))))
      else .next ((s.writeReg a (trunc8 ((s.reg a).toNat * (s.reg b).toNat))).setPc (trunc8 (s.pc.toNat + 3))) := by
  simp only [execMul, aluAndAdvance, aluApply, aluOperands, aluResult, narrow, readReg, State.pcPlus, aluWriteBack, regOperand_regByte, bind_ok, bind_error,
    bind_ite, finish_ite, finish_ok, finish_fault]

theorem execCmp_eq :
    execCmp (regByte a) (regByte b) s =
      if s.unwritten a = true then .next (s.raise (.unwrittenRead a))
      else if s.unwritten b = true then .next (s.raise (.unwrittenRead b))
      else if 255 < s.pc.toNat + 3 then .next (s.raise (.addressRange (trunc8 (s.pc.toNat + 3))))
      else .next ((s.setFlags (compareFlags (s.reg a) (s.reg b))).setPc (trunc8 (s.pc.toNat + 3))) := by
  simp only [execCmp, aluAndAdvance, aluApply, aluOperands, aluResult, readReg, State.pcPlus, aluWriteBack, regOperand_regByte, bind_ok, bind_error,
    bind_ite, finish_ite, finish_ok, finish_fault]

theorem execAnd_eq :
    execAnd (regByte a) (regByte b) s =
      if s.unwritten a = true then .next (s.raise (.unwrittenRead a))
      else if s.unwritten b = true then .next (s.raise (.unwrittenRead b))
      else .next (s.writeReg a (s.reg a &&& s.reg b)) := by
  simp only [execAnd, aluApply, aluOperands, aluResult, readReg, aluWriteBack, regOperand_regByte, bind_ok, bind_error,
    bind_ite, finish_ite, finish_ok, finish_fault]

theorem execLdi_eq :
    execLdi (regByte a) y s =
      if 255 < s.pc.toNat + 3 then .next (s.raise (.addressRange (trunc8 (s.pc.toNat + 3))))
      else .next ((s.writeReg a y).setPc (trunc8 (s.pc.toNat + 3))) := by
  simp only [execLdi, State.pcPlus, regOperand_regByte, bind_ok, bind_error,
    bind_ite, finish_ite, finish_ok, finish_fault]

theorem execSt_eq :
    execSt (regByte a) (regByte b) s =
      if s.unwritten a = true then .next (s.raise (.unwrittenRead a))
      else if s.unwritten b = true then .next (s.raise (.unwrittenRead b))
      else .next (s.writeMem (s.reg b) (s.reg a)) := by
  simp only [execSt, readReg, regOperand_regByte, bind_ok, bind_error,
    bind_ite, finish_ite, finish_ok, finish_fault]

theorem execPrn_eq :
    execPrn (regByte a) s =
      if s.unwritten a = true then .next (s.raise (.unwrittenRead a))
      else if 255 < s.pc.toNat + 2 then .next (s.raise (.addressRange (trunc8 (s.pc.toNat + 2))))
      else .next ((s.emit (s.reg a)).setPc (trunc8 (s.pc.toNat + 2))) := by
  simp only [execPrn, readReg, State.pcPlus, regOperand_regByte, bind_ok, bind_error,
    bind_ite, finish_ite, finish_ok, finish_fault]

theorem execPush_eq :
    execPush (regByte a) s =
      if s.unwritten a = true then .next (s.raise (.unwrittenRead a))
      else if s.sp = 0x00 then .next (s.raise (.stackBounds 0x00))
      else if 255 < s.pc.toNat + 2 then .next (s.raise (.addressRange (trunc8 (s.pc.toNat + 2))))
      else .next ((s.pushAt (s.sp - 1) (if a = 7 then s.sp - 1 else s.reg a)).setPc (trunc8 (s.pc.toNat + 2))) := by
  simp only [execPush, readReg, stackDown, State.pcPlus, State.reg_setSp, eq_comm (a := (7 : Reg)), regOperand_regByte, bind_ok, bind_error,
    bind_ite, finish_ite, finish_ok, finish_fault]

theorem execPop_eq :
    execPop (regByte a) s =
      if (if a = 7 then s.readMem s.sp else s.sp) = 0xFF then .next (s.raise (.stackBounds 0xFF))
      else if 255 < s.pc.toNat + 2 then .next (s.raise (.addressRange (trunc8 (s.pc.toNat + 2))))
      else .next (((s.writeReg a (s.readMem s.sp)).setSp ((if a = 7 then s.readMem s.sp else s.sp) + 1)).setPc
        (trunc8 (s.pc.toNat + 2))) := by
  simp only [execPop, stackUp, State.pcPlus, State.sp_writeReg, regOperand_regByte, bind_ok, bind_error,
    bind_ite, finish_ite, finish_ok, finish_fault]

theorem execJmp_eq :
    execJmp (regByte a) s =
      if s.unwritten a = true then .next (s.raise (.unwrittenRead a))
      else .next (s.setPc (s.reg a)) := by
  simp only [execJmp, jumpTo, readReg, regOperand_regByte, bind_ok, bind_error,
    bind_ite, finish_ite, finish_ok, finish_fault]

theorem execJeq_eq :
    execJeq (regByte a) s =
      if s.flv = false then .next (s.raise .flagsUnset)
      else if s.flagE = true then
        if s.unwritten a = true then .next (s.raise (.unwrittenRead a)) else .next (s.setPc (s.reg a))
      else if 255 < s.pc.toNat + 2 then .next (s.raise (.addressRange (trunc8 (s.pc.toNat + 2))))
      else .next (s.setPc (trunc8 (s.pc.toNat + 2))) := by
  simp only [execJeq, jumpIf, jumpTo, readE, readReg, State.pcPlus, regOperand_regByte, bind_ok, bind_error,
    bind_ite, finish_ite, finish_ok, finish_fault]
  cases s.flv <;> rfl

theorem execJne_eq :
    execJne (regByte a) s =
      if s.flv = false then .next (s.raise .flagsUnset)
      else if s.flagE = false then
        if s.unwritten a = true then .next (s.raise (.unwrittenRead a)) else .next (s.setPc (s.reg a))
      else if 255 < s.pc.toNat + 2 then .next (s.raise (.addressRange (trunc8 (s.pc.toNat + 2))))
      else .next (s.setPc (trunc8 (s.pc.toNat + 2))) := by
  simp only [execJne, jumpIf, jumpTo, readE, readReg, State.pcPlus, Bool.not_eq_true', regOperand_regByte, bind_ok, bind_error,
    bind_ite, finish_ite, finish_ok, finish_fault]
  cases s.flv <;> rfl

theorem execCall_eq :
    execCall (regByte a) s =
      if s.unwritten a = true then .next (s.raise (.unwrittenRead a))
      else if s.sp = 0x00 then .next (s.raise (.stackBounds 0x00))
      else if 255 < s.pc.toNat + 2 then .next (s.raise (.addressRange (trunc8 (s.pc.toNat + 2))))
      else .next ((s.pushAt (s.sp - 1) (trunc8 (s.pc.toNat + 2))).setPc (if a = 7 then s.sp - 1 else s.reg a)) := by
  simp only [execCall, readReg, stackDown, State.pcPlus, State.reg_setSp, eq_comm (a := (7 : Reg)), regOperand_regByte, bind_ok, bind_error,
    bind_ite, finish_ite, finish_ok, finish_fault]

theorem execRet_eq :
    execRet s =
      if s.sp = 0xFF then .next (s.raise (.stackBounds 0xFF))
      else .next ((s.setSp (s.sp + 1)).setPc (s.readMem s.sp)) := by
  simp only [execRet, stackUp, bind_ok, bind_error,
    bind_ite, finish_ite, finish_ok, finish_fault]

theorem execAdd_illegal (h : 7 < x.toNat) : execAdd x y s = .next (s.raise (.regIndex x)) := by
  simp only [execAdd, aluAndAdvance, regOperand_gt h, bind_error, finish_fault]

theorem execAdd_illegalB (h : 7 < y.toNat) : execAdd (regByte a) y s = .next (s.raise (.regIndex y)) := by
  simp only [execAdd, aluAndAdvance, regOperand_gt h, regOperand_regByte, bind_ok, bind_error, finish_fault]

theorem execMul_illegal (h : 7 < x.toNat) : execMul x y s = .next (s.raise (.regIndex x)) := by
  simp only [execMul, aluAndAdvance, regOperand_gt h, bind_error, finish_fault]

theorem execMul_illegalB (h : 7 < y.toNat) : execMul (regByte a) y s = .next (s.raise (.regIndex y)) := by
  simp only [execMul, aluAndAdvance, regOperand_gt h, regOperand_regByte, bind_ok, bind_error, finish_fault]

theorem execCmp_illegal (h : 7 < x.toNat) : execCmp x y s = .next (s.raise (.regIndex x)) := by
  simp only [execCmp, aluAndAdvance, regOperand_gt h, bind_error, finish_fault]

theorem execCmp_illegalB (h : 7 < y.toNat) : execCmp (regByte a) y s = .next (s.raise (.regIndex y)) := by
  simp only [execCmp, aluAndAdvance, regOperand_gt h, regOperand_regByte, bind_ok, bind_error, finish_fault]

theorem execAnd_illegal (h : 7 < x.toNat) : execAnd x y s = .next (s.raise (.regIndex x)) := by
  simp only [execAnd, regOperand_gt h, bind_error, finish_fault]

theorem execAnd_illegalB (h : 7 < y.toNat) : execAnd (regByte a) y s = .next (s.raise (.regIndex y)) := by
  simp only [execAnd, regOperand_gt h, regOperand_regByte, bind_ok, bind_error, finish_fault]

theorem execSt_illegal (h : 7 < x.toNat) : execSt x y s = .next (s.raise (.regIndex x)) := by
  simp only [execSt, regOperand_gt h, bind_error, finish_fault]

theorem execSt_illegalB (h : 7 < y.toNat) : execSt (regByte a) y s = .next (s.raise (.regIndex y)) := by
  simp only [execSt, regOperand_gt h, regOperand_regByte, bind_ok, bind_error, finish_fault]

theorem execLdi_illegal (h : 7 < x.toNat) : execLdi x y s = .next (s.raise (.regIndex x)) := by
  simp only [execLdi, regOperand_gt h, bind_error, finish_fault]

theorem execPrn_illegal (h : 7 < x.toNat) : execPrn x s = .next (s.raise (.regIndex x)) := by
  simp only [execPrn, regOperand_gt h, bind_error, finish_fault]

theorem execPush_illegal (h : 7 < x.toNat) : execPush x s = .next (s.raise (.regIndex x)) := by
  simp only [execPush, regOperand_gt h, bind_error, finish_fault]

theorem execPop_illegal (h : 7 < x.toNat) : execPop x s = .next (s.raise (.regIndex x)) := by
  simp only [execPop, regOperand_gt h, bind_error, finish_fault]

theorem execJmp_illegal (h : 7 < x.toNat) : execJmp x s = .next (s.raise (.regIndex x)) := by
  simp only [execJmp, regOperand_gt h, bind_error, finish_fault]

theorem execCall_illegal (h : 7 < x.toNat) : execCall x s = .next (s.raise (.regIndex x)) := by
  simp only [execCall, regOperand_gt h, bind_error, finish_fault]

theorem execJeq_illegal (h : 7 < x.toNat) : execJeq x s = .next (s.raise (.regIndex x)) := by
  simp only [execJeq, jumpIf, regOperand_gt h, bind_error, finish_fault]

theorem execJne_illegal (h : 7 < x.toNat) : execJne x s = .next (s.raise (.regIndex x)) := by
  simp only [execJne, jumpIf, regOperand_gt h, bind_error, finish_fault]

end equations

end Sys2Proof.Machine
end

