-- ==== Sys2Proof/Laws/PerInstr.lean ====
section
/-!
SUPPORT. One statement per instruction: its length is in the top two bits of its opcode (spec/30_encoding.md R50, R51).
-/

namespace Sys2Proof.Laws.LengthFromOpcode

open Sys2Proof Sys2Proof.Machine

/-- The encoding starts with a defined opcode (R56) whose bits 7:6 are the number of operand bytes (R51). -/
def Statement (i : Instr) : Prop :=
  ∃ (op : Byte) (operands : List Byte), encode i = op :: operands ∧ op ∈ definedOpcodes ∧
    operands.length = (op >>> 6).toNat

theorem add (a b : Byte) : Statement (.add a b) := ⟨_, _, rfl, by decide, by simp⟩

theorem and (a b : Byte) : Statement (.and a b) := ⟨_, _, rfl, by decide, by simp⟩

theorem call (a : Byte) : Statement (.call a) := ⟨_, _, rfl, by decide, rfl⟩

theorem cmp (a b : Byte) : Statement (.cmp a b) := ⟨_, _, rfl, by decide, by simp⟩

theorem hlt : Statement .hlt := ⟨_, _, rfl, by decide, rfl⟩

theorem jeq (a : Byte) : Statement (.jeq a) := ⟨_, _, rfl, by decide, rfl⟩

theorem jne (a : Byte) : Statement (.jne a) := ⟨_, _, rfl, by decide, rfl⟩

theorem jmp (a : Byte) : Statement (.jmp a) := ⟨_, _, rfl, by decide, rfl⟩

theorem ldi (a imm8 : Byte) : Statement (.ldi a imm8) := ⟨_, _, rfl, by decide, by simp⟩

theorem mul (a b : Byte) : Statement (.mul a b) := ⟨_, _, rfl, by decide, by simp⟩

theorem pop (a : Byte) : Statement (.pop a) := ⟨_, _, rfl, by decide, rfl⟩

theorem prn (a : Byte) : Statement (.prn a) := ⟨_, _, rfl, by decide, rfl⟩

theorem push (a : Byte) : Statement (.push a) := ⟨_, _, rfl, by decide, rfl⟩

theorem ret : Statement .ret := ⟨_, _, rfl, by decide, rfl⟩

theorem st (a b : Byte) : Statement (.st a b) := ⟨_, _, rfl, by decide, by simp⟩

end Sys2Proof.Laws.LengthFromOpcode
end

