-- ==== Sys2Proof/Laws/Relate.lean ====
section
/-!
SUPPORT. Two states that agree in everything an instruction reads take the same path through it. A claim that two runs stay
related is shown for each completion, not for each instruction.
-/

namespace Sys2Proof.Machine

/-- The two states agree in all that the instruction reads: a register only if it may be read, E only where a conditional
jump reads it (spec/10_state.md R15, R16, R25). -/
structure SameReads (i : Instr) (s s' : State) : Prop where
  unwritten : ∀ r, s'.unwritten r = s.unwritten r
  pc : s'.pc = s.pc
  params : s'.params = s.params
  flv : s'.flv = s.flv
  sp : s'.sp = s.sp
  mem : s'.mem = s.mem
  reg : ∀ r, s.unwritten r = false → s'.reg r = s.reg r
  flagE : s.flv = true → (∃ a, i = .jeq a ∨ i = .jne a) → s'.flagE = s.flagE

/-- The relation holds between the two answers of every way an instruction can end. -/
structure KeepsRelation (P : Host.Outcome State Fault Refusal → Host.Outcome State Fault Refusal → Prop) (i : Instr)
    (s s' : State) : Prop where
  fault : ∀ f, P (.next (s.raise f)) (.next (s'.raise f))
  nothing : P (.next s) (.next s')
  jump : ∀ p, P (.next (s.setPc p)) (.next (s'.setPc p))
  register : ∀ r v p, P (.next ((s.writeReg r v).setPc p)) (.next ((s'.writeReg r v).setPc p))
  registerOnly : ∀ r v, P (.next (s.writeReg r v)) (.next (s'.writeReg r v))
  compare : ∀ x y p, (∃ a b, i = .cmp a b) →
    P (.next ((s.setFlags (compareFlags x y)).setPc p)) (.next ((s'.setFlags (compareFlags x y)).setPc p))
  store : ∀ a v, P (.next (s.writeMem a v)) (.next (s'.writeMem a v))
  output : ∀ v p, P (.next ((s.emit v).setPc p)) (.next ((s'.emit v).setPc p))
  push : ∀ sp v p, P (.next ((s.pushAt sp v).setPc p)) (.next ((s'.pushAt sp v).setPc p))
  pop : ∀ r v sp p, P (.next (((s.writeReg r v).setSp sp).setPc p)) (.next (((s'.writeReg r v).setSp sp).setPc p))
  ret : ∀ sp p, P (.next ((s.setSp sp).setPc p)) (.next ((s'.setSp sp).setPc p))

theorem related_ite {A : Type} {P : A → A → Prop} {c : Prop} [Decidable c] {a b a' b' : A} (h1 : c → P a a')
    (h2 : ¬c → P b b') : P (if c then a else b) (if c then a' else b') := by
  split
  · exact h1 ‹_›
  · exact h2 ‹_›

/-- The answers of an instruction in two such states are related. -/
theorem exec_related {P : Host.Outcome State Fault Refusal → Host.Outcome State Fault Refusal → Prop} {i : Instr}
    {s s' : State} (same : SameReads i s s') (keeps : KeepsRelation P i s s') : P (exec i s) (exec i s') := by
  have hmm : ∀ a, s'.readMem a = s.readMem a := fun a => by simp [State.readMem, same.mem]
  cases i with
  | hlt => exact keeps.nothing
  | ret =>
    simp only [exec, execRet_eq, same.sp, hmm]
    exact related_ite (fun _ => keeps.fault _) fun _ => keeps.ret _ _
  | add x y =>
    rcases byte_cases x with ⟨a, rfl⟩ | hx
    · rcases byte_cases y with ⟨b, rfl⟩ | hy
      · simp only [exec, execAdd_eq, same.unwritten, same.pc, same.params]
        refine related_ite (fun _ => keeps.fault _) fun h1 => related_ite (fun _ => keeps.fault _) fun h2 => ?_
        rw [same.reg a (by simpa using h1), same.reg b (by simpa using h2)]
        exact related_ite (fun _ => keeps.fault _) fun _ => related_ite (fun _ => keeps.fault _) fun _ => keeps.register _ _ _
      · simp only [exec, execAdd_illegalB _ _ _ hy]; exact keeps.fault _
    · simp only [exec, execAdd_illegal _ _ _ hx]; exact keeps.fault _
  | mul x y =>
    rcases byte_cases x with ⟨a, rfl⟩ | hx
    · rcases byte_cases y with ⟨b, rfl⟩ | hy
      · simp only [exec, execMul_eq, same.unwritten, same.pc, same.params]
        refine related_ite (fun _ => keeps.fault _) fun h1 => related_ite (fun _ => keeps.fault _) fun h2 => ?_
        rw [same.reg a (by simpa using h1), same.reg b (by simpa using h2)]
        exact related_ite (fun _ => keeps.fault _) fun _ => related_ite (fun _ => keeps.fault _) fun _ => keeps.register _ _ _
      · simp only [exec, execMul_illegalB _ _ _ hy]; exact keeps.fault _
    · simp only [exec, execMul_illegal _ _ _ hx]; exact keeps.fault _
  | and x y =>
    rcases byte_cases x with ⟨a, rfl⟩ | hx
    · rcases byte_cases y with ⟨b, rfl⟩ | hy
      · simp only [exec, execAnd_eq, same.unwritten]
        refine related_ite (fun _ => keeps.fault _) fun h1 => related_ite (fun _ => keeps.fault _) fun h2 => ?_
        rw [same.reg a (by simpa using h1), same.reg b (by simpa using h2)]
        exact keeps.registerOnly _ _
      · simp only [exec, execAnd_illegalB _ _ _ hy]; exact keeps.fault _
    · simp only [exec, execAnd_illegal _ _ _ hx]; exact keeps.fault _
  | st x y =>
    rcases byte_cases x with ⟨a, rfl⟩ | hx
    · rcases byte_cases y with ⟨b, rfl⟩ | hy
      · simp only [exec, execSt_eq, same.unwritten]
        refine related_ite (fun _ => keeps.fault _) fun h1 => related_ite (fun _ => keeps.fault _) fun h2 => ?_
        rw [same.reg a (by simpa using h1), same.reg b (by simpa using h2)]
        exact keeps.store _ _
      · simp only [exec, execSt_illegalB _ _ _ hy]; exact keeps.fault _
    · simp only [exec, execSt_illegal _ _ _ hx]; exact keeps.fault _
  | cmp x y =>
    rcases byte_cases x with ⟨a, rfl⟩ | hx
    · rcases byte_cases y with ⟨b, rfl⟩ | hy
      · simp only [exec, execCmp_eq, same.unwritten, same.pc]
        refine related_ite (fun _ => keeps.fault _) fun h1 => related_ite (fun _ => keeps.fault _) fun h2 => ?_
        rw [same.reg a (by simpa using h1), same.reg b (by simpa using h2)]
        exact related_ite (fun _ => keeps.fault _) fun _ => keeps.compare _ _ _ ⟨_, _, rfl⟩
      · simp only [exec, execCmp_illegalB _ _ _ hy]; exact keeps.fault _
    · simp only [exec, execCmp_illegal _ _ _ hx]; exact keeps.fault _
  | ldi x y =>
    rcases byte_cases x with ⟨a, rfl⟩ | hx
    · simp only [exec, execLdi_eq, same.pc]
      exact related_ite (fun _ => keeps.fault _) fun h1 => keeps.register _ _ _
    · simp only [exec, execLdi_illegal _ _ _ hx]; exact keeps.fault _
  | prn x =>
    rcases byte_cases x with ⟨a, rfl⟩ | hx
    · simp only [exec, execPrn_eq, same.unwritten, same.pc]
      refine related_ite (fun _ => keeps.fault _) fun h1 => ?_
      rw [same.reg a (by simpa using h1)]
      exact related_ite (fun _ => keeps.fault _) fun _ => keeps.output _ _
    · simp only [exec, execPrn_illegal _ _ hx]; exact keeps.fault _
  | push x =>
    rcases byte_cases x with ⟨a, rfl⟩ | hx
    · simp only [exec, execPush_eq, same.unwritten, same.pc, same.sp]
      refine related_ite (fun _ => keeps.fault _) fun h1 => ?_
      rw [same.reg a (by simpa using h1)]
      exact related_ite (fun _ => keeps.fault _) fun _ => related_ite (fun _ => keeps.fault _) fun _ => keeps.push _ _ _
    · simp only [exec, execPush_illegal _ _ hx]; exact keeps.fault _
  | call x =>
    rcases byte_cases x with ⟨a, rfl⟩ | hx
    · simp only [exec, execCall_eq, same.unwritten, same.pc, same.sp]
      refine related_ite (fun _ => keeps.fault _) fun h1 => ?_
      rw [same.reg a (by simpa using h1)]
      exact related_ite (fun _ => keeps.fault _) fun _ => related_ite (fun _ => keeps.fault _) fun _ => keeps.push _ _ _
    · simp only [exec, execCall_illegal _ _ hx]; exact keeps.fault _
  | pop x =>
    rcases byte_cases x with ⟨a, rfl⟩ | hx
    · simp only [exec, execPop_eq, same.pc, same.sp, hmm]
      exact related_ite (fun _ => keeps.fault _) fun h1 => related_ite (fun _ => keeps.fault _) fun _ => keeps.pop _ _ _ _
    · simp only [exec, execPop_illegal _ _ hx]; exact keeps.fault _
  | jmp x =>
    rcases byte_cases x with ⟨a, rfl⟩ | hx
    · simp only [exec, execJmp_eq, same.unwritten]
      refine related_ite (fun _ => keeps.fault _) fun h1 => ?_
      rw [same.reg a (by simpa using h1)]
      exact keeps.jump _
    · simp only [exec, execJmp_illegal _ _ hx]; exact keeps.fault _
  | jeq x =>
    rcases byte_cases x with ⟨a, rfl⟩ | hx
    · simp only [exec, execJeq_eq, same.unwritten, same.pc, same.flv]
      refine related_ite (fun _ => keeps.fault _) fun h1 => ?_
      rw [same.flagE (by simpa using h1) ⟨_, .inl rfl⟩]
      refine related_ite (fun _ => related_ite (fun _ => keeps.fault _) fun h1 => ?_) fun _ => related_ite (fun _ => keeps.fault _) fun _ => keeps.jump _
      rw [same.reg a (by simpa using h1)]
      exact keeps.jump _
    · simp only [exec, execJeq_illegal _ _ hx]; exact keeps.fault _
  | jne x =>
    rcases byte_cases x with ⟨a, rfl⟩ | hx
    · simp only [exec, execJne_eq, same.unwritten, same.pc, same.flv]
      refine related_ite (fun _ => keeps.fault _) fun h1 => ?_
      rw [same.flagE (by simpa using h1) ⟨_, .inr rfl⟩]
      refine related_ite (fun _ => related_ite (fun _ => keeps.fault _) fun h1 => ?_) fun _ => related_ite (fun _ => keeps.fault _) fun _ => keeps.jump _
      rw [same.reg a (by simpa using h1)]
      exact keeps.jump _
    · simp only [exec, execJne_illegal _ _ hx]; exact keeps.fault _

end Sys2Proof.Machine
end

