-- ==== Sys2Proof/Tests/Slice0.lean ====
section
/-!
SUPPORT. Tests. Expected results are the vectors of spec/95_test_vectors.md, named as there; encodings are written out
from spec/30_encoding.md R52 and R54. After them, for each obligation with hypotheses, states and operands that meet them.
-/

namespace Sys2Proof.Tests

open Sys2Proof Sys2Proof.Machine

-- Small states

/-- The reset state with instruction bytes at `pc`, running. -/
def loaded (pc : Byte) (bytes : List Byte) : State := ({ State.reset with pc := pc } : State).placeInstr bytes

/-- Registers written. -/
def regs (s : State) (l : List (Reg × Byte)) : State := l.foldl (fun s c => s.writeReg c.1 c.2) s

/-- FL written. -/
def flags (s : State) (fl : Byte) : State := s.setFlags fl

/-- Under OP84 = ST. -/
def underSt (s : State) : State := { s with params := { s.params with op84 := .st } }

/-- Under OVF_MODE = fault. -/
def underFault (s : State) : State := { s with params := { s.params with ovfMode := .fault } }

/-- Under GPR_RESET = unwritten. -/
def underUnwritten (s : State) : State := { s with params := { s.params with gprReset := .unwritten } }

/-- Input levels at the next boundary. -/
def pins (s : State) (p : InputPins) : State := { s with inputs := [p] }

/-- What is asked of the next state holds, and there is one. -/
def answers (o : Host.Outcome State Fault Refusal) (p : State → Bool) : Bool :=
  match o with
  | .next t => p t
  | .fault _ => false
  | .refused _ => false

/-- The next state is `s` after one cycle that faulted with this code and information. -/
def faults (s : State) (code : BitVec 4) (info : Byte) : Bool :=
  answers (step s) fun t => decide (t = s.beginCycle.faultedBy code info)

theorem reaches {o : Host.Outcome State Fault Refusal} {P : State → Prop} [DecidablePred P]
    (h : answers o (fun t => decide (P t)) = true) : ∃ t, o = .next t ∧ P t := by
  cases o with
  | next t => exact ⟨t, rfl, of_decide_eq_true h⟩
  | fault f => cases h
  | refused r => cases h

-- Well-formedness: an illegal byte in each register operand is refused (R58); LDI's second byte is free (R59)

theorem test_wf_refuses_first_operand :
    ([.add 8 0, .and 8 0, .call 8, .cmp 8 0, .jeq 8, .jne 8, .jmp 8, .ldi 8 0, .mul 8 0, .pop 8, .prn 8, .push 8,
      .st 8 0] : List Instr).all (fun i => !i.wellFormed) = true := by decide

theorem test_wf_refuses_second_operand :
    ([.add 0 8, .and 0 8, .cmp 0 8, .mul 0 8, .st 0 8, .add 0 255] : List Instr).all (fun i => !i.wellFormed) = true := by
  decide

theorem test_wf_accepts :
    ([.add 7 7, .call 7, .hlt, .ldi 7 255, .ret, .st 0 7] : List Instr).all Instr.wellFormed = true := by decide

theorem test_encodable_refuses :
    (Instr.mul 0 1).encodable .st = false ∧ (Instr.st 0 1).encodable .mul = false := by decide

-- Decode: words written out from R52 and R54, the second byte in bits 15..8, the third in bits 23..16

theorem test_decode_add : decodeTableWord 24 0b00000001_00000000_10100000 = some (.add 0 1) := by decide
theorem test_decode_and : decodeTableWord 24 0b00000001_00000000_10101000 = some (.and 0 1) := by decide
theorem test_decode_call : decodeTableWord 16 0b00000001_01010000 = some (.call 1) := by decide
theorem test_decode_cmp : decodeTableWord 24 0b00000010_00000000_10100111 = some (.cmp 0 2) := by decide
theorem test_decode_hlt : decodeTableWord 8 0b00000001 = some .hlt := by decide
theorem test_decode_jeq : decodeTableWord 16 0b00000010_01010101 = some (.jeq 2) := by decide
theorem test_decode_jne : decodeTableWord 16 0b00000011_01010110 = some (.jne 3) := by decide
theorem test_decode_jmp : decodeTableWord 16 0b00000011_01010100 = some (.jmp 3) := by decide
theorem test_decode_ldi : decodeTableWord 24 0b00001000_00000000_10000010 = some (.ldi 0 8) := by decide
theorem test_decode_mul : decodeTableWord 24 0b00000001_00000000_10000100 = some (.mul 0 1) := by decide
theorem test_decode_pop : decodeTableWord 16 0b00000001_01000110 = some (.pop 1) := by decide
theorem test_decode_prn : decodeTableWord 16 0b00000000_01000111 = some (.prn 0) := by decide
theorem test_decode_push : decodeTableWord 16 0b00000000_01000101 = some (.push 0) := by decide
theorem test_decode_ret : decodeTableWord 8 0b00010001 = some .ret := by decide
theorem test_decode_st : decode .st [0b10000100, 0, 1] = .ok (.st 0 1, []) := rfl

/-- Bits above the row's are zero: the operand bytes of a row given without them. -/
theorem test_decode_short : decodeTableWord 8 0xFFA0 = some (.add 0 0) := by decide

/-- V-UNK-1 to V-UNK-6. -/
theorem test_decode_unknown :
    [0x00, 0xC0, 0x41, 0xA2, 0xFF, 0xA1, 0xA9, 0x83, 0x44, 0x48, 0x51, 0x57, 0x10, 0x12, 0x02].all
      (fun w => decide (decodeTableWord 8 w = none)) = true := by decide

/-- The first instruction after reset is the placed one: `82 00 08` (V-LDI-1). -/
theorem test_fetch_word :
    answers (step (State.reset.withFetchWord 24 0x080082))
      (fun t => decide (t.reg 0 = 0x08 ∧ t.pc = 0x03 ∧ t.run = .running)) = true := by decide

-- Instructions

theorem test_add_1 :
    answers (step (regs (loaded 0x06 [0xA0, 0, 1]) [(0, 8), (1, 9)]))
      (fun t => decide (t.reg 0 = 17 ∧ t.reg 1 = 9 ∧ t.pc = 0x09 ∧ t.flv = false)) = true := by decide

/-- V-ADD (fault). -/
theorem test_add_overflow : faults (underFault (regs (loaded 0x06 [0xA0, 0, 1]) [(0, 200), (1, 100)])) 8 0x2C = true := by
  decide

/-- V-MUL (wrap). -/
theorem test_mul_wrap :
    answers (step (regs (loaded 0x0E [0x84, 0, 1]) [(0, 20), (1, 13)])) (fun t => decide (t.reg 0 = 4 ∧ t.pc = 0x11)) =
      true := by decide

/-- V-MUL-4: the source is also the destination. -/
theorem test_mul_square :
    answers (step (regs (loaded 0x0E [0x84, 3, 3]) [(3, 255)])) (fun t => decide (t.reg 3 = 0x01)) = true := by decide

theorem test_and_1 :
    answers (step (regs (loaded 0x06 [0xA8, 0, 1]) [(0, 0x0C), (1, 0x0A)]))
      (fun t => decide (t.reg 0 = 0x08 ∧ t.pc = 0x06)) = true := by decide

/-- V-AND-5: no advance, so no fault at the top of memory. -/
theorem test_and_top :
    answers (step (regs (loaded 0xFD [0xA8, 0, 1]) [(0, 3), (1, 1)])) (fun t => decide (t.reg 0 = 1 ∧ t.pc = 0xFD)) =
      true := by decide

/-- V-CMP-2. -/
theorem test_cmp_greater :
    answers (step (regs (loaded 0x0F [0xA7, 0, 2]) [(0, 5), (2, 3)]))
      (fun t => decide (t.fl = 0x02 ∧ t.flv = true ∧ t.pc = 0x12)) = true := by decide

/-- V-CMP-4: unsigned. -/
theorem test_cmp_unsigned :
    answers (step (regs (loaded 0x0F [0xA7, 0, 2]) [(0, 0), (2, 255)])) (fun t => decide (t.fl = 0x04)) = true := by decide

/-- V-LDI-6. -/
theorem test_ldi_top :
    answers (step (loaded 0xFC [0x82, 0, 5])) (fun t => decide (t.reg 0 = 5 ∧ t.pc = 0xFF)) = true := by decide

/-- V-LDI-7. -/
theorem test_ldi_range : faults (loaded 0xFD [0x82, 0, 5]) 4 0x00 = true := by decide

theorem test_st_1 :
    answers (step (underSt (regs (loaded 0x06 [0x84, 0, 1]) [(0, 0x2A), (1, 0x80)])))
      (fun t => decide (t.readMem 0x80 = 0x2A ∧ t.pc = 0x06)) = true := by decide

/-- V-ST-4: it overwrites its own opcode. -/
theorem test_st_self :
    answers (step (underSt (regs (loaded 0x06 [0x84, 0, 1]) [(0, 0x01), (1, 0x06)])))
      (fun t => decide (t.fetchWindow = [0x01, 0, 1])) = true := by decide

theorem test_prn_1 :
    answers (step (regs (loaded 0x09 [0x47, 0]) [(0, 17)]))
      (fun t => decide (t.out = some 17 ∧ t.output = [17] ∧ t.pc = 0x0B)) = true := by decide

/-- V-PRN-4. -/
theorem test_prn_range : faults (regs (loaded 0xFE [0x47, 0]) [(0, 1)]) 4 0x00 = true := by decide

/-- V-STK-3: the decremented SP is pushed. -/
theorem test_push_sp :
    answers (step (loaded 0x06 [0x45, 7])) (fun t => decide (t.sp = 0xF3 ∧ t.readMem 0xF3 = 0xF3 ∧ t.pc = 0x08)) = true := by
  decide

/-- V-STK-8. -/
theorem test_push_bounds : faults (regs (loaded 0x06 [0x45, 0]) [(0, 9), (7, 0)]) 5 0x00 = true := by decide

/-- V-STK-4: the popped value plus 1. -/
theorem test_pop_sp :
    answers (step ((regs (loaded 0x06 [0x46, 7]) [(7, 0xF3)]).writeMem 0xF3 0x40))
      (fun t => decide (t.sp = 0x41 ∧ t.pc = 0x08)) = true := by decide

/-- V-STK-9. -/
theorem test_pop_bounds : faults (regs (loaded 0x06 [0x46, 0]) [(7, 0xFF)]) 5 0xFF = true := by decide

/-- V-JMP-3: no advance is made. -/
theorem test_jmp_top : answers (step (loaded 0xFE [0x54, 0])) (fun t => decide (t.pc = 0x00)) = true := by decide

/-- V-JMP-4. -/
theorem test_jmp_fetch : faults (loaded 0xFF [0x54]) 4 0x00 = true := by decide

theorem test_jeq_1 :
    answers (step (flags (regs (loaded 0x10 [0x55, 2]) [(2, 0x30)]) 0x01)) (fun t => decide (t.pc = 0x30 ∧ t.fl = 1)) =
      true := by decide

/-- V-JEQ-9. -/
theorem test_jeq_unset : faults (underUnwritten (loaded 0x00 [0x55, 2])) 6 0x00 = true := by decide

/-- V-JNE-2. -/
theorem test_jne_greater :
    answers (step (flags (regs (loaded 0x12 [0x56, 3]) [(3, 0x0C)]) 0x02)) (fun t => decide (t.pc = 0x0C)) = true := by decide

/-- V-JNE-3. -/
theorem test_jne_equal :
    answers (step (flags (regs (loaded 0x12 [0x56, 3]) [(3, 0x0C)]) 0x01)) (fun t => decide (t.pc = 0x14)) = true := by decide

theorem test_call_1 :
    answers (step (regs (loaded 0x06 [0x50, 1]) [(1, 0x0B)]))
      (fun t => decide (t.sp = 0xF3 ∧ t.readMem 0xF3 = 0x08 ∧ t.pc = 0x0B)) = true := by decide

/-- V-CALL-2: the target is the decremented SP. -/
theorem test_call_sp :
    answers (step (loaded 0x00 [0x50, 7])) (fun t => decide (t.sp = 0xF3 ∧ t.readMem 0xF3 = 0x02 ∧ t.pc = 0xF3)) = true := by
  decide

theorem test_ret_1 :
    answers (step ((regs (loaded 0x0E [0x11]) [(7, 0xF3)]).writeMem 0xF3 0x08))
      (fun t => decide (t.pc = 0x08 ∧ t.sp = 0xF4)) = true := by decide

/-- V-RET-3. -/
theorem test_ret_bounds : faults (regs (loaded 0x0E [0x11]) [(7, 0xFF)]) 5 0xFF = true := by decide

/-- V-HLT-1. -/
theorem test_hlt_1 :
    answers (step (loaded 0x0B [0x01])) (fun t => decide (t = (loaded 0x0B [0x01]).beginCycle)) = true := by decide

/-- V-HLT-3. -/
theorem test_hlt_abort :
    answers (step (pins (loaded 0x0B [0x01]) { InputPins.quiet with cancel := true, abort := true }))
      (fun t => decide (t.run = .halted ∧ t.hcause = .abort ∧ t.pc = 0x0B)) = true := by decide

-- Cycles without an instruction

/-- V-UNK-1 and program P6: empty memory after reset and `start`. -/
theorem test_unknown_opcode : faults (loaded 0x00 []) 1 0x00 = true := by decide

/-- V-UNK-5: the opcode check comes before the operand fetch. -/
theorem test_unknown_at_top : faults (loaded 0xFF [0xFF]) 1 0xFF = true := by decide

/-- V-DEC-2: a bad index before an unwritten register. -/
theorem test_priority_index : faults (underUnwritten (loaded 0x00 [0xA0, 0, 9])) 3 0x09 = true := by decide

/-- V-DEC-3: an unwritten register before the stack bound. -/
theorem test_priority_unwritten : faults (underUnwritten (regs (loaded 0x00 [0x45, 0]) [(7, 0)])) 7 0x00 = true := by decide

/-- V-RUN-3. -/
theorem test_loader :
    answers (step (pins State.reset { InputPins.quiet with loadWe := true, loadAddr := 0x05, loadData := 0xA7 }))
      (fun t => decide (t.readMem 0x05 = 0xA7 ∧ t.run = .idle)) = true := by decide

/-- Writing the value an unlisted address reads as lists nothing. -/
theorem test_memory_form :
    (State.reset.writeMem 9 1).mem = [(9, 1)] ∧ ((State.reset.writeMem 9 1).writeMem 9 0).mem = [] ∧
      State.reset.mem.wf = true := by decide

-- Witnesses: states and operands that meet the hypotheses of each obligation, clause by clause

/-- A state every field of which is away from reset, running, with the bytes at `pc`. -/
def busy (pc : Byte) (bytes : List Byte) : State :=
  { (flags (regs (loaded pc bytes) [(0, 200), (1, 100), (2, 0x30), (3, 255), (7, 0x80)]) 0x02) with
    hcause := .abort, fcause := 5, finfo := 0xFF, out := some 9, output := [7, 9] }

/-- One step answers a next state with this property. -/
abbrev stepsTo (s : State) (P : State → Prop) : Prop := ∃ t, step s = .next t ∧ P t

/-- The handler answers a next state with this property. -/
abbrev execsTo (i : Instr) (s : State) (P : State → Prop) : Prop := ∃ t, exec i s = .next t ∧ P t

theorem witness_DecodeOfEncodeIsTheInstruction :
    (Instr.add 255 0).encodable .mul = true ∧ (Instr.mul 0 255).encodable .mul = true ∧
      (Instr.st 7 8).encodable .st = true := by decide

theorem witness_DecodedBytesAreTheEncoding : decode .st [0x84, 255, 0, 0x01] = .ok (.st 255 0, [0x01]) := rfl

theorem witness_Byte84SelectsMulOrSt :
    decode .mul [0x84, 7, 8] = .ok (.mul 7 8, []) ∧ decode .st [0x84, 255, 0] = .ok (.st 255 0, []) := ⟨rfl, rfl⟩

theorem witness_UnknownOpcodeFaults_undefined :
    (loaded 0x00 []).ready ∧ (loaded 0x00 []).byteAt 0 ∉ definedOpcodes ∧
      (loaded 0xFF [0xFF]).ready ∧ (loaded 0xFF [0xFF]).byteAt 0 ∉ definedOpcodes := by decide

theorem witness_UnknownOpcodeFaults_defined :
    (loaded 0xFF [0x54]).ready ∧ (loaded 0xFF [0x54]).byteAt 0 ∈ definedOpcodes ∧
      stepsTo (loaded 0xFF [0x54]) (fun t => t.run = .faulted) := ⟨by decide, by decide, reaches (by decide)⟩

theorem witness_RegisterOperandsAreChecked_illegal :
    (Instr.add 9 8).regOperands.find? (fun x => decide (7 < x.toNat)) = some 9 ∧
      (Instr.st 7 8).regOperands.find? (fun x => decide (7 < x.toNat)) = some 8 := by decide

theorem witness_RegisterOperandsAreChecked_legal :
    (Instr.jeq 7).wellFormed = true ∧ (loaded 0 []).run = .running ∧
      execsTo (.jeq 7) (loaded 0 []) (fun t => t.run = .faulted) := ⟨by decide, by decide, reaches (by decide)⟩

theorem witness_StepRunsDecodedInstruction_bytes :
    (busy 0xFF [0x11]).ready ∧ decode (busy 0xFF [0x11]).params.op84 (busy 0xFF [0x11]).fetchWindow = .ok (.ret, []) :=
  ⟨by decide, rfl⟩

theorem witness_StepRunsDecodedInstruction_encoding :
    (busy 0xFD [0xA0, 0, 1]).ready ∧ (Instr.add 0 1).encodable (busy 0xFD [0xA0, 0, 1]).params.op84 = true ∧
      ∀ k, (h : k < (encode (.add 0 1)).length) →
        (busy 0xFD [0xA0, 0, 1]).pc.toNat + k ≤ 255 ∧ (busy 0xFD [0xA0, 0, 1]).byteAt k = (encode (.add 0 1))[k] := by
  decide

theorem witness_ResetGivesR22 :
    ({ op84 := .st, ovfMode := .fault, gprReset := .unwritten } : Params).gprReset = .unwritten ∧
      Config.paramsAtReset.gprReset = .zero ∧
      ({ InputPins.quiet with start := true } : InputPins).start = true ∧ InputPins.quiet.rst = false := by decide

theorem witness_ResetWorksFromAnyState :
    (pins (busy 9 []) { InputPins.quiet with rst := true, start := true, abort := true }).pins.rst = true ∧
      (busy 9 []).params.gprReset = .zero ∧ (underUnwritten (busy 9 [])).params.gprReset = .unwritten := by decide

theorem witness_StopRequestsPrecedeTheInstruction :
    (busy 9 []).run = .running ∧ (pins (busy 9 []) { InputPins.quiet with cancel := true, abort := true }).pins.abort = true ∧
      (pins (busy 9 []) { InputPins.quiet with cancel := true }).pins.cancel = true ∧
      (busy 9 [0x01]).ready ∧ stepsTo (busy 9 [0x01]) (fun t => t.run = .running) :=
  ⟨by decide, by decide, by decide, by decide, reaches (by decide)⟩

theorem witness_StopRequestsPrecedeTheInstruction_decoded :
    decode (busy 9 [0x01]).params.op84 (busy 9 [0x01]).fetchWindow = .ok (.hlt, [0, 0]) := rfl

theorem witness_FaultedAndHaltedAreTerminal :
    ((busy 9 []).raise (.unknownOpcode 0)).run = .faulted ∧ ((busy 9 []).halt .abort).run = .halted ∧
      ((busy 9 []).halt .abort).pins.rst = false := by decide

theorem witness_IdleLoadsAndStarts :
    (pins State.reset { InputPins.quiet with start := true, loadWe := true, loadAddr := 255, loadData := 1 }).run = .idle ∧
      (pins State.reset { InputPins.quiet with start := true, loadWe := true }).pins.rst = false := by decide

theorem witness_LoaderIsDeadOutsideIdle :
    (busy 9 []).run ≠ .idle ∧ InputPins.quiet ≠ { InputPins.quiet with start := true, loadWe := true } ∧
      InputPins.quiet.rst = ({ InputPins.quiet with start := true, loadWe := true } : InputPins).rst := by decide

theorem witness_RunChangesOnlyAsR18Says_reset :
    stepsTo (pins (busy 9 []) { InputPins.quiet with rst := true }) (fun t => t.run = .idle) := reaches (by decide)

theorem witness_RunChangesOnlyAsR18Says_idle :
    stepsTo (pins State.reset { InputPins.quiet with start := true }) (fun t => t.run = .running) ∧
      stepsTo State.reset (fun t => t.run = .idle) := ⟨reaches (by decide), reaches (by decide)⟩

theorem witness_RunChangesOnlyAsR18Says_running :
    stepsTo (pins (busy 9 []) { InputPins.quiet with abort := true }) (fun t => t.run = .halted) ∧
      stepsTo (busy 9 [0x01]) (fun t => t.run = .running) ∧ stepsTo (busy 9 []) (fun t => t.run = .faulted) :=
  ⟨reaches (by decide), reaches (by decide), reaches (by decide)⟩

theorem witness_RunChangesOnlyAsR18Says_ended :
    stepsTo ((busy 9 []).halt .abort) (fun t => t.run = .halted) ∧
      stepsTo ((busy 9 []).raise .flagsUnset) (fun t => t.run = .faulted) := ⟨reaches (by decide), reaches (by decide)⟩

theorem witness_InvariantIsKept :
    (busy 9 [0x47, 1]).inv ∧ stepsTo (busy 9 [0x47, 1]) (fun t => t.output = [7, 9, 100]) :=
  ⟨by decide, reaches (by decide)⟩

theorem witness_FaultsArePrecise :
    (busy 0xFD [0x82, 0, 5]).run = .running ∧ stepsTo (busy 0xFD [0x82, 0, 5]) (fun t => t.run = .faulted) :=
  ⟨by decide, reaches (by decide)⟩

theorem witness_HandlersRaiseOnlyTheirFaults :
    (busy 9 []).run = .running ∧ execsTo (.add 0 1) (underFault (busy 9 [])) (fun t => t.run = .faulted ∧ t.fcause = 8) ∧
      execsTo (.prn 0) (underUnwritten (loaded 0 [])) (fun t => t.run = .faulted ∧ t.fcause = 7) :=
  ⟨by decide, reaches (by decide), reaches (by decide)⟩

/-- Every instruction completes in the state, so every clause has its hypotheses met. -/
theorem witness_NextPcIsAsTheTableSays :
    ([.add 0 1, .and 0 1, .call (regByte 7), .call (regByte 2), .cmp 0 1, .hlt, .jeq (regByte 2), .jne (regByte 2),
      .jmp (regByte 2), .ldi 0 8, .mul 0 1, .pop 0, .prn 0, .push 0, .ret, .st (regByte 0) (regByte 1)] : List Instr).all
      (fun i => answers (exec i (busy 0xFC [])) fun t => decide ((busy 0xFC []).run = .running ∧ t.run = .running)) =
      true := by decide

theorem witness_NextPcIsAsTheTableSays_equal :
    ([.jeq (regByte 2), .jne (regByte 2)] : List Instr).all
      (fun i => answers (exec i (flags (busy 0xFD []) 1)) fun t => decide (t.run = .running)) = true := by decide

theorem witness_FlagsAreWrittenByCmpAndReadByJumps_written :
    execsTo (.cmp 2 3) (busy 9 []) (fun t => t.fl ≠ (busy 9 []).fl ∧ t.run = .running) := reaches (by decide)

theorem witness_FlagsAreWrittenByCmpAndReadByJumps_legal :
    (busy 9 []).flagsLegal ∧ execsTo (.add 0 1) (busy 9 []) (fun t => t.run = .running) :=
  ⟨by decide, reaches (by decide)⟩

theorem witness_FlagsAreWrittenByCmpAndReadByJumps_read :
    (0xFE : Byte).getLsbD 0 = (busy 9 []).fl.getLsbD 0 ∧ execsTo (.jeq 2) (busy 9 []) (fun t => t.run = .running) ∧
      execsTo (.cmp 0 1) (busy 9 []) (fun t => t.run = .running) ∧
      execsTo (.add 0 1) (busy 9 []) (fun t => t.run = .running) :=
  ⟨by decide, reaches (by decide), reaches (by decide), reaches (by decide)⟩

theorem witness_FlagsAreUnsetUntilTheFirstCmp_reset :
    stepsTo (pins (busy 9 []) { InputPins.quiet with rst := true }) (fun t => t.flv = false) := reaches (by decide)

theorem witness_FlagsAreUnsetUntilTheFirstCmp_kept :
    (busy 9 [0x01]).pins.rst = false ∧ (busy 9 [0x01]).flv = true ∧ stepsTo (busy 9 [0x01]) (fun t => t.flv = true) :=
  ⟨by decide, by decide, reaches (by decide)⟩

theorem witness_FlagsAreUnsetUntilTheFirstCmp_set :
    (loaded 9 [0xA7, 0, 7]).flv = false ∧ stepsTo (loaded 9 [0xA7, 0, 7]) (fun t => t.flv = true) ∧
      execsTo (.cmp 0 7) (loaded 9 []) (fun t => t.run = .running) := ⟨by decide, reaches (by decide), reaches (by decide)⟩

theorem witness_FlagsAreUnsetUntilTheFirstCmp_unset :
    (loaded 9 []).flv = false ∧ execsTo (.cmp 0 7) (loaded 9 []) (fun t => t.flv = true) ∧
      execsTo (.jeq 0) (loaded 9 []) (fun t => t.flv = false) := ⟨by decide, reaches (by decide), reaches (by decide)⟩

theorem witness_StatusRegistersAreInvisible :
    (busy 9 []).run = .running ∧ execsTo (.add 0 1) (busy 9 []) (fun t => t.run = .running) ∧
      execsTo (.add 8 1) (busy 9 []) (fun t => t.run = .faulted) := ⟨by decide, reaches (by decide), reaches (by decide)⟩

theorem witness_UnwrittenRegistersAreUnobserved :
    (underUnwritten (loaded 9 [])).unwritten 0 = true ∧ (underUnwritten (loaded 9 [])).unwritten 6 = true ∧
      execsTo (.ldi 0 1) (underUnwritten (loaded 9 [])) (fun t => t.unwritten 0 = false) ∧
      execsTo (.ldi 0 1) (underUnwritten (loaded 9 [])) (fun t => t.unwritten 6 = true) :=
  ⟨by decide, by decide, reaches (by decide), reaches (by decide)⟩

theorem witness_ParametersNeverChange :
    stepsTo (underSt (busy 9 [0x84, 0, 1])) (fun t => t.run = .running) := reaches (by decide)

theorem witness_RegisterInstructionsFrame :
    execsTo (.add (regByte 0) 1) (busy 9 []) (fun t => t.run = .running) ∧
      execsTo (.and (regByte 0) 1) (busy 9 []) (fun t => t.run = .running) ∧
      execsTo (.mul (regByte 7) 1) (busy 9 []) (fun t => t.run = .running) ∧
      execsTo (.ldi (regByte 7) 255) (busy 9 []) (fun t => t.run = .running) :=
  ⟨reaches (by decide), reaches (by decide), reaches (by decide), reaches (by decide)⟩

theorem witness_CompareFrame : execsTo (.cmp 0 1) (busy 9 []) (fun t => t.run = .running) := reaches (by decide)

theorem witness_JumpHaltAndOutputFrame :
    execsTo (.jmp 2) (busy 9 []) (fun t => t.run = .running) ∧ execsTo (.jeq 2) (busy 9 []) (fun t => t.run = .running) ∧
      execsTo (.jne 2) (busy 9 []) (fun t => t.run = .running) ∧ execsTo .hlt (busy 9 []) (fun t => t.run = .running) ∧
      execsTo (.prn 2) (busy 9 []) (fun t => t.run = .running) :=
  ⟨reaches (by decide), reaches (by decide), reaches (by decide), reaches (by decide), reaches (by decide)⟩

theorem witness_PopAndRetFrame :
    execsTo (.pop (regByte 0)) (busy 9 []) (fun t => t.run = .running) ∧
      execsTo (.pop (regByte 7)) (busy 9 []) (fun t => t.run = .running) ∧
      execsTo .ret (busy 9 []) (fun t => t.run = .running) := ⟨reaches (by decide), reaches (by decide), reaches (by decide)⟩

theorem witness_StoringInstructionsFrame :
    execsTo (.st 0 (regByte 1)) (busy 9 []) (fun t => t.run = .running) ∧
      execsTo (.push 7) (busy 9 []) (fun t => t.run = .running) ∧
      execsTo (.call 7) (busy 9 []) (fun t => t.run = .running) :=
  ⟨reaches (by decide), reaches (by decide), reaches (by decide)⟩

/-- For the cycle of each opcode: a ready state with that opcode at `pc`. -/
theorem witness_Cycles :
    ([0xA0, 0x84, 0xA7, 0x82, 0x47, 0x45, 0x46, 0x54, 0x55, 0x56, 0x50, 0xA8, 0x11, 0x01] : List Byte).all
      (fun op => decide ((busy 0xFE [op]).ready ∧ (busy 0xFE [op]).byteAt 0 = op ∧
        (busy 0xFE [op]).params.op84 = .mul)) = true := by decide

theorem witness_StCycle :
    (underSt (busy 9 [0x84, 0, 1])).ready ∧ (underSt (busy 9 [0x84, 0, 1])).params.op84 = .st ∧
      (underSt (busy 9 [0x84, 0, 1])).byteAt 0 = 0x84 := by decide

/-- The cell stored to is next to the instruction's own bytes, below and above. -/
theorem witness_StCycle_spin :
    (underSt (busy 0x31 [0x84, 0, 2])).byteAt 2 = regByte 2 ∧ (underSt (busy 0x31 [0x84, 0, 2])).reg 2 = 0x30 ∧
      (underSt (busy 0x2D [0x84, 0, 2])).reg 2 = 0x30 ∧
      (∀ p ∈ (underSt (busy 0x31 [0x84, 0, 2])).inputs, p.rst = false ∧ p.abort = false ∧ p.cancel = false) ∧
      stepsTo (underSt (busy 0x31 [0x84, 0, 2])) (fun t => t.run = .running) ∧
      stepsTo (underSt (busy 0x2D [0x84, 0, 2])) (fun t => t.run = .running) :=
  ⟨by decide, by decide, by decide, by decide, reaches (by decide), reaches (by decide)⟩

theorem witness_AndCycle_spin :
    (busy 0xFD [0xA8, 0, 1]).run = .running ∧ (busy 0xFD [0xA8, 0, 1]).byteAt 0 = 0xA8 ∧
      (∀ p ∈ (busy 0xFD [0xA8, 0, 1]).inputs, p.rst = false ∧ p.abort = false ∧ p.cancel = false) ∧
      stepsTo (busy 0xFD [0xA8, 0, 1]) (fun t => t.run = .running) :=
  ⟨by decide, by decide, by decide, reaches (by decide)⟩

/-- CALL in one state, then RET in a state with SP and the pushed cell as the CALL left them. -/
theorem witness_RetCycle_pair :
    execsTo (.call 1) (busy 0xFD [0x50, 1]) (fun t => t.run = .running ∧ (busy 0xFD [0x50, 1]).run = .running ∧
      ((busy 9 []).setSp 0x7F |>.writeMem 0x7F 0xFF).reg 7 = t.reg 7 ∧
      ((busy 9 []).setSp 0x7F |>.writeMem 0x7F 0xFF).mem.read (t.reg 7).toNat = t.mem.read (t.reg 7).toNat) :=
  reaches (by decide)

theorem witness_HltSpins :
    (busy 0xFF [0x01]).run = .running ∧ (busy 0xFF [0x01]).byteAt 0 = 0x01 ∧ (busy 0xFF [0x01]).ready ∧
      ∀ p ∈ (busy 0xFF [0x01]).inputs, p.rst = false ∧ p.abort = false ∧ p.cancel = false := by decide

theorem witness_AluInstructionsComplete :
    (busy 0xFC []).unwritten 0 = false ∧ (busy 0xFC []).unwritten 7 = false ∧ (busy 0xFC []).pc.toNat + 3 ≤ 255 ∧
      (busy 0xFC []).params.ovfMode = .wrap ∧
      (underFault (regs (busy 0xFC []) [(0, 200), (1, 55)])).params.ovfMode = .fault ∧
      ((regs (busy 0xFC []) [(0, 200), (1, 55)]).reg 0).toNat + ((regs (busy 0xFC []) [(0, 200), (1, 55)]).reg 1).toNat ≤ 255 ∧
      ((regs (busy 0xFC []) [(0, 15), (1, 17)]).reg 0).toNat * ((regs (busy 0xFC []) [(0, 15), (1, 17)]).reg 1).toNat ≤ 255 :=
  by decide

theorem witness_DataInstructionsComplete :
    (busy 0xFC []).pc.toNat + 3 ≤ 255 ∧ (busy 0xFD []).pc.toNat + 2 ≤ 255 ∧ (busy 0xFD []).unwritten 0 = false ∧
      (busy 0xFF []).unwritten 1 = false := by decide

theorem witness_StackInstructionsComplete :
    (busy 0xFD []).pc.toNat + 2 ≤ 255 ∧ (busy 0xFD []).unwritten 7 = false ∧ (regs (busy 0xFD []) [(7, 1)]).reg 7 ≠ 0 ∧
      (0 : Reg) ≠ 7 ∧ (regs (busy 0xFD []) [(7, 0xFE)]).reg 7 ≠ 0xFF ∧
      ((busy 0xFD []).writeMem 0x80 0xFE).mem.read ((busy 0xFD []).reg 7).toNat ≠ 0xFF := by decide

theorem witness_JumpsComplete :
    (busy 0xFD []).unwritten 2 = false ∧ (busy 0xFD []).flv = true ∧ (busy 0xFD []).fl.getLsbD 0 = false ∧
      (flags (busy 0xFD []) 1).fl.getLsbD 0 = true ∧ (busy 0xFD []).pc.toNat + 2 ≤ 255 := by decide

theorem witness_CallRetAndHltComplete :
    (busy 0xFD []).unwritten 7 = false ∧ (regs (busy 0xFD []) [(7, 1)]).reg 7 ≠ 0x00 ∧ (busy 0xFD []).pc.toNat + 2 ≤ 255 ∧
      (regs (busy 0xFD []) [(7, 0xFE)]).reg 7 ≠ 0xFF := by decide

theorem witness_PushThenPopRestores_one :
    (regs (busy 0xFB []) [(7, 1)]).run = .running ∧ (regs (busy 0xFB []) [(7, 1)]).unwritten 7 = false ∧
      (regs (busy 0xFB []) [(7, 1)]).unwritten 0 = false ∧ (regs (busy 0xFB []) [(7, 1)]).reg 7 ≠ 0x00 ∧
      (regs (busy 0xFB []) [(7, 1)]).pc.toNat + 4 ≤ 255 := by decide

theorem witness_PushThenPopRestores_two :
    (0 : Reg) ≠ 7 ∧ (1 : Reg) ≠ 7 ∧ (0 : Reg) ≠ 1 ∧ (regs (busy 0xF7 []) [(7, 2)]).run = .running ∧
      (regs (busy 0xF7 []) [(7, 2)]).unwritten 0 = false ∧ (regs (busy 0xF7 []) [(7, 2)]).unwritten 1 = false ∧
      2 ≤ ((regs (busy 0xF7 []) [(7, 2)]).reg 7).toNat ∧ (regs (busy 0xF7 []) [(7, 2)]).pc.toNat + 8 ≤ 255 := by decide

theorem witness_ExactlyOneOfJeqAndJneIsTaken :
    (busy 0xFD []).run = .running ∧ (busy 0xFD []).flv = true ∧
      execsTo (.jeq (regByte 2)) (busy 0xFD []) (fun t => t.run = .running) ∧
      execsTo (.jne (regByte 2)) (busy 0xFD []) (fun t => t.run = .running) :=
  ⟨by decide, by decide, reaches (by decide), reaches (by decide)⟩

theorem witness_DeadAluOperations :
    (busy 9 []).unwritten 0 = false ∧ (busy 9 []).params.ovfMode = .wrap ∧
      8 ≤ ((regs (busy 9 []) [(1, 8)]).reg 1).toNat ∧ (underFault (busy 9 [])).params.ovfMode = .fault ∧
      255 < ((regs (busy 9 []) [(0, 128), (1, 1)]).reg 0).toNat * 2 ^ ((regs (busy 9 []) [(0, 128), (1, 1)]).reg 1).toNat ∧
      ((regs (busy 9 []) [(0, 127), (1, 1)]).reg 0).toNat * 2 ^ ((regs (busy 9 []) [(0, 127), (1, 1)]).reg 1).toNat ≤ 255 ∧
      (busy 9 []).reg 1 ≠ 0 ∧ (busy 9 []).reg 4 = 0 := by decide

theorem witness_DeadAluOperations_fault :
    (busy 9 []).run = .running ∧ execsTo (.add 8 0) (busy 9 []) (fun t => t.run = .faulted) :=
  ⟨by decide, reaches (by decide)⟩

/-- The store hits the middle byte of the instruction itself. -/
theorem witness_StoreIsSeenByTheNextFetch :
    (underSt (busy 0x2F [0x84, 1, 2])).ready ∧ (underSt (busy 0x2F [0x84, 1, 2])).params.op84 = .st ∧
      (underSt (busy 0x2F [0x84, 1, 2])).byteAt 0 = 0x84 ∧ (underSt (busy 0x2F [0x84, 1, 2])).pc.toNat + 2 ≤ 255 ∧
      (underSt (busy 0x2F [0x84, 1, 2])).byteAt 1 = regByte 1 ∧ (underSt (busy 0x2F [0x84, 1, 2])).byteAt 2 = regByte 2 ∧
      stepsTo (underSt (busy 0x2F [0x84, 1, 2])) (fun t => t.run = .running) :=
  ⟨by decide, by decide, by decide, by decide, by decide, by decide, reaches (by decide)⟩

/-- PUSH stores to the byte that the next cycle fetches as its opcode. -/
theorem witness_StoreIsSeenByTheNextFetch_push :
    (busy 0x7D [0x45, 0]).ready ∧ (busy 0x7D [0x45, 0]).byteAt 0 = 0x45 ∧ (busy 0x7D [0x45, 0]).pc.toNat + 1 ≤ 255 ∧
      (busy 0x7D [0x45, 0]).byteAt 1 = regByte 0 ∧
      stepsTo (busy 0x7D [0x45, 0]) (fun t => t.run = .running ∧ t.pc = (busy 0x7D [0x45, 0]).reg 7 - 1) :=
  ⟨by decide, by decide, by decide, by decide, reaches (by decide)⟩

/-- CALL through R7 goes on at the return address it stored. -/
theorem witness_StoreIsSeenByTheNextFetch_call :
    (busy 0xFD [0x50, 7]).ready ∧ (busy 0xFD [0x50, 7]).byteAt 0 = 0x50 ∧ (busy 0xFD [0x50, 7]).pc.toNat + 1 ≤ 255 ∧
      (busy 0xFD [0x50, 7]).byteAt 1 = regByte 7 ∧
      stepsTo (busy 0xFD [0x50, 7]) (fun t => t.run = .running ∧ t.pc = (busy 0xFD [0x50, 7]).reg 7 - 1) :=
  ⟨by decide, by decide, by decide, by decide, reaches (by decide)⟩

end Sys2Proof.Tests
end

/-! Proofs of the statements of spec/00_scope.md. No step changes the setting of the parameters (R4): neither the cycle up to
the handler nor any way an instruction can end writes it. -/

namespace Sys2Proof.Machine

-- The cycle up to the handler

/-- The state a cycle settles in, or the one its handler runs on. -/
def CycleAction.state : CycleAction → State
  | .settle t => t
  | .execute _ t => t

@[simp] theorem State.applyReset_params (s : State) : s.applyReset.params = s.params := rfl

@[simp] theorem State.idleCycle_params (s : State) (p : InputPins) : (s.idleCycle p).params = s.params := by
  unfold State.idleCycle
  cases p.loadWe <;> cases p.start <;> rfl

@[simp] theorem fetchCycle_state_params (s : State) : (fetchCycle s).state.params = s.params := by
  unfold fetchCycle
  cases decode s.params.op84 s.fetchWindow <;> rfl

@[simp] theorem runningCycle_state_params (s : State) (p : InputPins) :
    (runningCycle s p).state.params = s.params := by
  unfold runningCycle
  split
  · exact s.halt_params .abort
  split
  · exact s.halt_params .cancel
  · exact fetchCycle_state_params s

/-- Reset is among the cases: it takes the setting from the state it leaves (log entry 17). -/
theorem planCycle_state_params (s : State) : (planCycle s).state.params = s.params := by
  unfold planCycle
  split
  · exact s.beginCycle.applyReset_params
  cases s.run with
  | idle => exact s.beginCycle.idleCycle_params s.pins
  | running => exact runningCycle_state_params s.beginCycle s.pins
  | halted => exact s.beginCycle_params
  | faulted => exact s.beginCycle_params

-- The handler

/-- A state agrees with itself in all that an instruction reads. -/
theorem SameReads.refl (i : Instr) (s : State) : SameReads i s s where
  unwritten _ := rfl
  pc := rfl
  params := rfl
  flv := rfl
  sp := rfl
  mem := rfl
  reg _ _ := rfl
  flagE _ _ := rfl

/-- If the outcome is a next state, its setting of the parameters is that of `s`. -/
def keepsParams (s : State) (o : Host.Outcome State Fault Refusal) : Prop := ∀ t, o = .next t → t.params = s.params

theorem keepsParams_next {s u : State} (h : u.params = s.params) : keepsParams s (.next u) := by
  rintro t ⟨⟩
  exact h

/-- Every way an instruction can end keeps the setting; the second outcome of the relation plays no part. -/
theorem keepsParams_endings (i : Instr) (s : State) : KeepsRelation (fun o _ => keepsParams s o) i s s where
  fault _ := keepsParams_next rfl
  nothing := keepsParams_next rfl
  jump _ := keepsParams_next rfl
  register _ _ _ := keepsParams_next rfl
  registerOnly _ _ := keepsParams_next rfl
  compare _ _ _ _ := keepsParams_next rfl
  store _ _ := keepsParams_next rfl
  output _ _ := keepsParams_next rfl
  push _ _ _ := keepsParams_next rfl
  pop _ _ _ _ := keepsParams_next rfl
  ret _ _ := keepsParams_next rfl

theorem exec_params {i : Instr} {s t : State} (h : exec i s = .next t) : t.params = s.params :=
  exec_related (SameReads.refl i s) (keepsParams_endings i s) t h

/-- Settles O25: the cycle up to the handler keeps the setting, and so does the handler. -/
theorem parametersNeverChange : Obligations.ParametersNeverChange := by
  unfold Obligations.ParametersNeverChange
  intro s t h
  have hplan := planCycle_state_params s
  cases hp : planCycle s with
  | settle u =>
    rw [hp] at hplan
    rw [step_settle hp] at h
    cases h
    exact hplan
  | execute i u =>
    rw [hp] at hplan
    rw [step_execute hp] at h
    exact (exec_params h).trans hplan

end Sys2Proof.Machine

/-! Proofs of the statements of spec/10_state.md. One step is one of six cases (`StepCase`), and one handler ends in one
of eleven ways (`Ending`); the statements on single runs are read off these two. The statements on two runs that differ
in what no instruction reads go through `exec_related`. -/

namespace Sys2Proof.Machine

-- What one step can do

theorem planCycle_reset {s : State} (hrst : s.pins.rst = true) : planCycle s = .settle s.beginCycle.applyReset := by
  simp [planCycle, hrst]

theorem planCycle_idle {s : State} (hrst : s.pins.rst = false) (hrun : s.run = .idle) :
    planCycle s = .settle (s.beginCycle.idleCycle s.pins) := by
  simp [planCycle, hrst, hrun]

theorem planCycle_ended {s : State} (hrst : s.pins.rst = false) (hrun : s.ended) :
    planCycle s = .settle s.beginCycle := by
  rcases hrun with hrun | hrun <;> simp [planCycle, hrst, hrun]

/-- The cause a stop request leaves: abort wins over cancel (spec/60_exceptions.md R146). -/
def InputPins.stopCause (p : InputPins) : HaltCause := if p.abort then .abort else .cancel

theorem planCycle_stop {s : State} (hrst : s.pins.rst = false) (hrun : s.run = .running)
    (hstop : s.pins.abort = true ∨ s.pins.cancel = true) :
    planCycle s = .settle (s.beginCycle.halt s.pins.stopCause) := by
  cases habort : s.pins.abort with
  | true => simp [planCycle, runningCycle, InputPins.stopCause, hrst, hrun, habort]
  | false =>
    have hcancel : s.pins.cancel = true := by simpa [habort] using hstop
    simp [planCycle, runningCycle, InputPins.stopCause, hrst, hrun, habort, hcancel]

/-- The cases of one step (spec/10_state.md R18, R26, spec/44_halt_and_run_loop.md R121, R122). -/
inductive StepCase (s : State) : State → Prop
  | reset (hrst : s.pins.rst = true) : StepCase s s.beginCycle.applyReset
  | idle (hrst : s.pins.rst = false) (hrun : s.run = .idle) : StepCase s (s.beginCycle.idleCycle s.pins)
  | stopped (hrst : s.pins.rst = false) (hrun : s.run = .running)
      (hstop : s.pins.abort = true ∨ s.pins.cancel = true) : StepCase s (s.beginCycle.halt s.pins.stopCause)
  | fetchFaulted (f : CoreFault) (hready : s.ready) (hcode : f.code = 1 ∨ f.code = 4) :
      StepCase s (s.beginCycle.raise f)
  | executed {t : State} (i : Instr) (rest : List Byte) (hready : s.ready)
      (hdecode : decode s.params.op84 s.fetchWindow = .ok (i, rest)) (hexec : exec i s.beginCycle = .next t) :
      StepCase s t
  | ended (hrst : s.pins.rst = false) (hrun : s.ended) : StepCase s s.beginCycle

theorem stepCase_of_settle {s t u : State} (hplan : planCycle s = .settle u) (hcase : StepCase s u)
    (h : step s = .next t) : StepCase s t := by
  rw [step_settle hplan] at h
  cases h
  exact hcase

theorem stepCase_of_ready {s t : State} (hready : s.ready) (h : step s = .next t) : StepCase s t := by
  rcases step_ready hready with ⟨i, rest, hdecode, hstep⟩ | ⟨f, hcode, hstep⟩
  · exact .executed i rest hready hdecode (hstep ▸ h)
  · rw [hstep] at h
    cases h
    exact .fetchFaulted f hready hcode

theorem step_cases {s t : State} (h : step s = .next t) : StepCase s t := by
  cases hrst : s.pins.rst with
  | true => exact stepCase_of_settle (planCycle_reset hrst) (.reset hrst) h
  | false =>
    cases hrun : s.run with
    | idle => exact stepCase_of_settle (planCycle_idle hrst hrun) (.idle hrst hrun) h
    | running =>
      by_cases hstop : s.pins.abort = true ∨ s.pins.cancel = true
      · exact stepCase_of_settle (planCycle_stop hrst hrun hstop) (.stopped hrst hrun hstop) h
      · obtain ⟨habort, hcancel⟩ := not_or.mp hstop
        exact stepCase_of_ready ⟨hrun, hrst, by simpa using habort, by simpa using hcancel⟩ h
    | halted => exact stepCase_of_settle (planCycle_ended hrst (.inl hrun)) (.ended hrst (.inl hrun)) h
    | faulted => exact stepCase_of_settle (planCycle_ended hrst (.inr hrun)) (.ended hrst (.inr hrun)) h

-- What one handler can do

/-- The ways a handler can end, whatever the instruction; only CMP writes the flags. -/
inductive Ending (i : Instr) (s : State) : State → Prop
  | fault (f : CoreFault) : Ending i s (s.raise f)
  | nothing : Ending i s s
  | jump (p : Byte) : Ending i s (s.setPc p)
  | register (r : Reg) (v p : Byte) : Ending i s ((s.writeReg r v).setPc p)
  | registerOnly (r : Reg) (v : Byte) : Ending i s (s.writeReg r v)
  | compare (x y p : Byte) (hcmp : ∃ a b, i = .cmp a b) : Ending i s ((s.setFlags (compareFlags x y)).setPc p)
  | store (a v : Byte) : Ending i s (s.writeMem a v)
  | output (v p : Byte) : Ending i s ((s.emit v).setPc p)
  | push (sp v p : Byte) : Ending i s ((s.pushAt sp v).setPc p)
  | pop (r : Reg) (v sp p : Byte) : Ending i s (((s.writeReg r v).setSp sp).setPc p)
  | ret (sp p : Byte) : Ending i s ((s.setSp sp).setPc p)

/-- If the outcome is a next state, it is one of the endings. -/
def endsIn (i : Instr) (s : State) (o : Host.Outcome State Fault Refusal) : Prop := ∀ t, o = .next t → Ending i s t

theorem Ending.endsIn {i : Instr} {s u : State} (h : Ending i s u) : endsIn i s (.next u) := by
  rintro t ⟨⟩
  exact h

theorem endsIn_endings (i : Instr) (s : State) : KeepsRelation (fun o _ => endsIn i s o) i s s where
  fault f := (Ending.fault f).endsIn
  nothing := Ending.nothing.endsIn
  jump p := (Ending.jump p).endsIn
  register r v p := (Ending.register r v p).endsIn
  registerOnly r v := (Ending.registerOnly r v).endsIn
  compare x y p hcmp := (Ending.compare x y p hcmp).endsIn
  store a v := (Ending.store a v).endsIn
  output v p := (Ending.output v p).endsIn
  push sp v p := (Ending.push sp v p).endsIn
  pop r v sp p := (Ending.pop r v sp p).endsIn
  ret sp p := (Ending.ret sp p).endsIn

theorem exec_ending {i : Instr} {s t : State} (h : exec i s = .next t) : Ending i s t :=
  exec_related (SameReads.refl i s) (endsIn_endings i s) t h

/-- A handler changes RUN only by a fault. -/
theorem exec_run {i : Instr} {s t : State} (h : exec i s = .next t) : t.run = s.run ∨ t.run = .faulted := by
  rcases exec_completes_or_faults h with ⟨hrun, -⟩ | ⟨f, rfl, -⟩
  · exact .inl hrun
  · exact .inr rfl

/-- Memory stays canonical: the addresses stored to are bytes. -/
theorem exec_wf {i : Instr} {s t : State} (h : exec i s = .next t) (hwf : s.mem.wf = true) : t.mem.wf = true := by
  cases exec_ending h with
  | store a v => exact Memory.wf_write v a.isLt hwf
  | push sp v p => exact Memory.wf_write v sp.isLt hwf
  | _ => exact hwf

/-- Only a completed CMP writes the flags, FL with E, G or L alone (R15, R16). -/
theorem exec_flags {i : Instr} {s t : State} (h : exec i s = .next t) :
    s.flagsKept t ∨
      ((∃ a b, i = .cmp a b) ∧ t.run = s.run ∧ t.flv = true ∧ (t.fl = 1 ∨ t.fl = 2 ∨ t.fl = 4)) := by
  cases exec_ending h with
  | compare x y p hcmp => exact .inr ⟨hcmp, rfl, rfl, compareFlags_cases x y⟩
  | _ => exact .inl ⟨rfl, rfl⟩

theorem exec_flagsLegal {i : Instr} {s t : State} (h : exec i s = .next t) (hfl : s.flagsLegal) : t.flagsLegal := by
  rcases exec_flags h with ⟨hflKept, hflvKept⟩ | ⟨-, -, -, hlegal⟩
  · rw [State.flagsLegal, hflKept, hflvKept]
    exact hfl
  · exact fun _ => hlegal

/-- A completed CMP has set the flags (R15, R16). -/
theorem execCmp_completed {a b : Byte} {s t : State} (h : exec (.cmp a b) s = .next t) (hrun : t.run = .running) :
    t.flv = true ∧ (t.fl = 1 ∨ t.fl = 2 ∨ t.fl = 4) := by
  rcases execCmp_cases h with ⟨_, _, _, _, _, _, _, _, rfl⟩ | ⟨f, rfl, -⟩
  · exact ⟨rfl, compareFlags_cases _ _⟩
  · cases hrun

/-- A handler presents no value on the output channel, or records the one it presents
(spec/41_data_movement_io.md R93). -/
theorem exec_out {i : Instr} {s t : State} (h : exec i s = .next t) :
    t.out = s.out ∨ ∃ v, t.out = some v ∧ t.output = s.output ++ [v] ∧ t.run = s.run := by
  cases exec_ending h with
  | output v p => exact .inr ⟨v, rfl, rfl, rfl⟩
  | _ => exact .inl rfl

/-- Under GPR_RESET = zero a write of a register leaves XV (log entry 14). -/
theorem State.markWritten_of_zero {s : State} (hzero : s.params.gprReset = .zero) (r : Reg) :
    s.markWritten r = s.xv := by
  simp [State.markWritten, hzero]

theorem exec_xv_of_zero {i : Instr} {s t : State} (h : exec i s = .next t) (hzero : s.params.gprReset = .zero) :
    t.xv = s.xv := by
  cases exec_ending h with
  | register r v p => exact State.markWritten_of_zero hzero r
  | registerOnly r v => exact State.markWritten_of_zero hzero r
  | push sp v p => exact s.markWritten_seven
  | pop r v sp p => exact (s.writeReg r v).markWritten_seven.trans (State.markWritten_of_zero hzero r)
  | ret sp p => exact s.markWritten_seven
  | _ => rfl

-- The invariant

/-- The codes a handler can raise are those a faulted machine can report, but for that of the fetch
(spec/60_exceptions.md R141). -/
theorem handlerFaultCodes_subset (i : Instr) : handlerFaultCodes i ⊆ [3, 4, 5, 6, 7, 8] := by
  cases i <;> simp [handlerFaultCodes]

theorem raise_causeLegal {s : State} {f : CoreFault} {operands : List Byte} {i : Instr}
    (h : allowedFault s operands (handlerFaultCodes i) f) : (s.raise f).causeLegal := by
  obtain ⟨hlisted, -, hunwritten, hoverflow⟩ := h
  have hcode := handlerFaultCodes_subset i hlisted
  simp only [List.mem_cons, List.not_mem_nil, or_false] at hcode
  rintro -
  rw [State.raise_fcause]
  rcases hcode with h3 | h4 | h5 | h6 | h7 | h8
  · exact .inr (.inl h3)
  · exact .inr (.inr (.inl h4))
  · exact .inr (.inr (.inr (.inl h5)))
  · exact .inr (.inr (.inr (.inr (.inl h6))))
  · exact .inr (.inr (.inr (.inr (.inr (.inl ⟨h7, hunwritten h7⟩)))))
  · exact .inr (.inr (.inr (.inr (.inr (.inr ⟨h8, hoverflow h8⟩)))))

theorem exec_causeLegal {i : Instr} {s t : State} (h : exec i s = .next t) (hrun : s.run = .running) :
    t.causeLegal := by
  rcases exec_completes_or_faults h with ⟨hkept, -⟩ | ⟨f, rfl, hallowed⟩
  · intro hfaulted
    rw [hkept, hrun] at hfaulted
    cases hfaulted
  · exact raise_causeLegal hallowed

theorem exec_outLegal {i : Instr} {s t : State} (h : exec i s = .next t) (hrun : s.run = .running)
    (hout : s.out = none) : t.outLegal := by
  rcases exec_out h with hkept | ⟨v, hv, hrecorded, hkept⟩
  · exact fun hsome => absurd (hkept.trans hout) hsome
  · exact fun _ => ⟨hkept.trans hrun, by rw [hv, hrecorded, List.getLast?_concat]⟩

theorem exec_marksLegal {i : Instr} {s t : State} (h : exec i s = .next t) (hmarks : s.marksLegal) : t.marksLegal := by
  intro hzero
  rw [exec_params h] at hzero
  rw [exec_xv_of_zero h hzero, hmarks hzero]

/-- A handler keeps the invariant in a running machine that presents nothing yet. -/
theorem exec_inv {i : Instr} {s t : State} (h : exec i s = .next t) (hrun : s.run = .running) (hout : s.out = none)
    (hinv : s.inv) : t.inv := by
  obtain ⟨hwf, hflags, -, -, hmarks⟩ := hinv
  exact ⟨exec_wf h hwf, exec_flagsLegal h hflags, exec_causeLegal h hrun, exec_outLegal h hrun hout,
    exec_marksLegal h hmarks⟩

theorem beginCycle_inv {s : State} (hinv : s.inv) : s.beginCycle.inv := by
  obtain ⟨hwf, hflags, hcause, -, hmarks⟩ := hinv
  exact ⟨hwf, hflags, hcause, fun hsome => absurd rfl hsome, hmarks⟩

theorem resetWith_inv (p : Params) : (State.resetWith p).inv :=
  ⟨rfl, nofun, nofun, fun hsome => absurd rfl hsome, fun _ => rfl⟩

theorem applyReset_inv (s : State) : s.applyReset.inv := resetWith_inv s.params

theorem idleCycle_run (s : State) (p : InputPins) :
    (s.idleCycle p).run = if p.start = true then .running else s.run := by
  unfold State.idleCycle
  cases p.loadWe <;> cases p.start <;> rfl

theorem idleCycle_mem (s : State) (p : InputPins) :
    (s.idleCycle p).mem = if p.loadWe = true then s.mem.write p.loadAddr.toNat p.loadData else s.mem := by
  unfold State.idleCycle
  cases p.loadWe <;> cases p.start <;> rfl

/-- An idle cycle writes RUN and memory, and nothing else (R27). -/
theorem idleCycle_frame (s : State) (p : InputPins) :
    s.idleCycle p = { s with run := (s.idleCycle p).run, mem := (s.idleCycle p).mem } := by
  unfold State.idleCycle
  cases p.loadWe <;> cases p.start <;> rfl

theorem idleCycle_inv {s : State} {p : InputPins} (hrun : s.run = .idle) (hout : s.out = none) (hinv : s.inv) :
    (s.idleCycle p).inv := by
  obtain ⟨hwf, hflags, -, -, hmarks⟩ := hinv
  rw [idleCycle_frame]
  refine ⟨?_, hflags, ?_, fun hsome => absurd hout hsome, hmarks⟩
  · show (s.idleCycle p).mem.wf = true
    rw [idleCycle_mem]
    split
    · exact Memory.wf_write _ p.loadAddr.isLt hwf
    · exact hwf
  · intro hfaulted
    simp only [idleCycle_run, hrun] at hfaulted
    split at hfaulted <;> cases hfaulted

theorem halt_inv {s : State} {c : HaltCause} (hout : s.out = none) (hinv : s.inv) : (s.halt c).inv := by
  obtain ⟨hwf, hflags, -, -, hmarks⟩ := hinv
  exact ⟨hwf, hflags, nofun, fun hsome => absurd hout hsome, hmarks⟩

theorem raise_fetch_inv {s : State} {f : CoreFault} (hcode : f.code = 1 ∨ f.code = 4) (hout : s.out = none)
    (hinv : s.inv) : (s.raise f).inv := by
  obtain ⟨hwf, hflags, -, -, hmarks⟩ := hinv
  exact ⟨hwf, hflags, fun _ => hcode.imp_right fun h4 => .inr (.inl h4), fun hsome => absurd hout hsome, hmarks⟩

/-- Settles O16: each case of a step keeps the invariant. -/
theorem invariantIsKept : Obligations.InvariantIsKept := by
  unfold Obligations.InvariantIsKept
  intro s t hinv h
  have hbegin := beginCycle_inv hinv
  cases step_cases h with
  | reset => exact applyReset_inv _
  | idle _ hrun => exact idleCycle_inv hrun rfl hbegin
  | stopped => exact halt_inv rfl hbegin
  | fetchFaulted f _ hcode => exact raise_fetch_inv hcode rfl hbegin
  | executed i rest hready _ hexec => exact exec_inv hexec hready.1 rfl hbegin
  | ended => exact hbegin

/-- Settles O17: the reset state meets each part of the invariant under every setting. -/
theorem invariantHoldsAtReset : Obligations.InvariantHoldsAtReset := by
  unfold Obligations.InvariantHoldsAtReset
  exact ⟨resetWith_inv Config.paramsAtReset, resetWith_inv⟩

-- The reset state and the run state

theorem resetWith_marked {p : Params} {r : Reg} (hr : r ≠ 7) : (State.resetWith p).marked r = false := by
  have hlt : r.val < 7 := lt_of_le_of_ne (Nat.le_of_lt_succ r.isLt) (Fin.val_ne_of_ne hr)
  simp [State.marked, State.resetWith, hlt]

theorem resetWith_reg {p : Params} {r : Reg} (hr : r ≠ 7) : (State.resetWith p).reg r = 0x00 := by
  have hne : 7 ≠ r.val := (Fin.val_ne_of_ne hr).symm
  have hregs : (State.resetWith p).regs = (Vector.replicate 8 (0 : Byte)).set 7 Config.spReset := rfl
  rw [State.reg, hregs, Fin.getElem_fin, Vector.getElem_set_ne _ _ hne, Vector.getElem_replicate]

/-- A cycle with `start` and no store begins the run and does nothing else (R27). -/
theorem step_start {s : State} (hrst : s.pins.rst = false) (hrun : s.run = .idle) (hload : s.pins.loadWe = false)
    (hstart : s.pins.start = true) : step s = .next { s.beginCycle with run := .running } := by
  rw [step_settle (planCycle_idle hrst hrun)]
  simp [State.idleCycle, hload, hstart]

/-- Settles O8: the fields are those of `State.resetWith`, and `start` then writes RUN only. -/
theorem resetGivesR22 : Obligations.ResetGivesR22 := by
  unfold Obligations.ResetGivesR22
  exact fun p => ⟨rfl, rfl, rfl, fun _ => rfl, rfl, rfl, fun _ _ => resetWith_marked, fun _ _ => resetWith_reg,
    fun q hrst hload hstart => ⟨_, step_start hrst rfl hload hstart, rfl, rfl, rfl⟩⟩

/-- Settles O12: the cycle is `State.idleCycle`, whose lemmas give RUN, memory and the frame. -/
theorem idleLoadsAndStarts : Obligations.IdleLoadsAndStarts := by
  unfold Obligations.IdleLoadsAndStarts
  intro s hrun hrst
  refine ⟨_, step_settle (planCycle_idle hrst hrun), ?_, fun addr => ?_, idleCycle_frame _ _⟩
  · rw [idleCycle_run, State.beginCycle_run, hrun]
  · rw [idleCycle_mem]
    cases s.pins.loadWe with
    | true => simp [Memory.read_write]
    | false => simp

/-- While RUN is not idle a cycle looks at `rst`, `cancel` and `abort` only (R27, R40). -/
theorem planCycle_eq_of_agree {s : State} {p q : InputPins} {later : List InputPins} (hrun : s.run ≠ .idle)
    (hrst : p.rst = q.rst) (hcancel : p.cancel = q.cancel) (habort : p.abort = q.abort) :
    planCycle { s with inputs := p :: later } = planCycle { s with inputs := q :: later } := by
  have hbegin : State.beginCycle { s with inputs := p :: later } =
      State.beginCycle { s with inputs := q :: later } := rfl
  have hp : State.pins { s with inputs := p :: later } = p := rfl
  have hq : State.pins { s with inputs := q :: later } = q := rfl
  unfold planCycle
  rw [hp, hq, hbegin, hrst]
  cases hr : s.run with
  | idle => exact absurd hr hrun
  | running =>
    have hcycle (u : State) : runningCycle u p = runningCycle u q := by
      rw [runningCycle, runningCycle, hcancel, habort]
    simp only [hcycle]
  | halted => rfl
  | faulted => rfl

/-- Settles O13: the two cycles plan the same action. -/
theorem loaderIsDeadOutsideIdle : Obligations.LoaderIsDeadOutsideIdle := by
  unfold Obligations.LoaderIsDeadOutsideIdle
  intro s p q later hrun hrst hcancel habort
  unfold step
  rw [planCycle_eq_of_agree hrun hrst hcancel habort]

/-- Settles O14: each clause names one case of a step. -/
theorem runChangesOnlyAsR18Says : Obligations.RunChangesOnlyAsR18Says := by
  unfold Obligations.RunChangesOnlyAsR18Says
  refine ⟨rfl, fun s t h => ?_⟩
  cases step_cases h with
  | reset hrst => exact ⟨fun _ => rfl, by simp [hrst]⟩
  | idle hrst hrun => simp [idleCycle_run, hrst, hrun]
  | stopped hrst hrun hstop => rcases hstop with hstop | hstop <;> simp [hrst, hrun, hstop]
  | fetchFaulted f hready =>
    obtain ⟨hrun, hrst, habort, hcancel⟩ := hready
    simp [hrst, hrun, habort, hcancel]
  | executed i rest hready _ hexec =>
    obtain ⟨hrun, hrst, habort, hcancel⟩ := hready
    have hnext := exec_run hexec
    rw [State.beginCycle_run, hrun] at hnext
    simp [hrst, hrun, habort, hcancel, hnext]
  | ended hrst hrun => rcases hrun with hrun | hrun <;> simp [hrst, hrun, State.beginCycle]

-- Two runs that differ in what no instruction reads

/-- The next state in the first outcome, if any, is related to the next state in the second. -/
def answersRelated (R : State → State → Prop) (o o' : Host.Outcome State Fault Refusal) : Prop :=
  ∀ t, o = .next t → ∃ t', o' = .next t' ∧ R t t'

theorem answersRelated_next {R : State → State → Prop} {u u' : State} (h : R u u') :
    answersRelated R (.next u) (.next u') := by
  rintro t ⟨⟩
  exact ⟨u', rfl, h⟩

-- Another FL

/-- `t'` is `t` but for FL, which either is the same, since the run wrote it, or holds `v`, since the run left the flags
as in `s`. -/
def sameButFl (s : State) (v : Byte) (t t' : State) : Prop :=
  ∃ w, t' = { t with fl := w } ∧ (w = t.fl ∨ (w = v ∧ t.flv = s.flv))

theorem sameButFl_endings (i : Instr) (s : State) (v : Byte) :
    KeepsRelation (answersRelated (sameButFl s v)) i s { s with fl := v } where
  fault _ := answersRelated_next ⟨v, rfl, .inr ⟨rfl, rfl⟩⟩
  nothing := answersRelated_next ⟨v, rfl, .inr ⟨rfl, rfl⟩⟩
  jump _ := answersRelated_next ⟨v, rfl, .inr ⟨rfl, rfl⟩⟩
  register _ _ _ := answersRelated_next ⟨v, rfl, .inr ⟨rfl, rfl⟩⟩
  registerOnly _ _ := answersRelated_next ⟨v, rfl, .inr ⟨rfl, rfl⟩⟩
  compare x y _ _ := answersRelated_next ⟨compareFlags x y, rfl, .inl rfl⟩
  store _ _ := answersRelated_next ⟨v, rfl, .inr ⟨rfl, rfl⟩⟩
  output _ _ := answersRelated_next ⟨v, rfl, .inr ⟨rfl, rfl⟩⟩
  push _ _ _ := answersRelated_next ⟨v, rfl, .inr ⟨rfl, rfl⟩⟩
  pop _ _ _ _ := answersRelated_next ⟨v, rfl, .inr ⟨rfl, rfl⟩⟩
  ret _ _ := answersRelated_next ⟨v, rfl, .inr ⟨rfl, rfl⟩⟩

/-- Another FL that agrees in E where a conditional jump reads E makes no difference but in FL (R15, R16). -/
theorem exec_otherFl {i : Instr} {s t : State} {v : Byte}
    (hE : s.flv = true → (∃ a, i = .jeq a ∨ i = .jne a) → v.getLsbD 0 = s.fl.getLsbD 0) (h : exec i s = .next t) :
    ∃ w, exec i { s with fl := v } = .next { t with fl := w } ∧ (w = t.fl ∨ (w = v ∧ t.flv = s.flv)) := by
  have same : SameReads i s { s with fl := v } := ⟨fun _ => rfl, rfl, rfl, rfl, rfl, rfl, fun _ _ => rfl, hE⟩
  obtain ⟨_, hexec, w, rfl, hw⟩ := exec_related same (sameButFl_endings i s v) t h
  exact ⟨w, hexec, hw⟩

/-- Settles O21: only the ending of CMP writes the flags, and a handler reads E alone, in a conditional jump. -/
theorem flagsAreWrittenByCmpAndReadByJumps : Obligations.FlagsAreWrittenByCmpAndReadByJumps := by
  unfold Obligations.FlagsAreWrittenByCmpAndReadByJumps
  refine ⟨fun i s t h hchanged => ?_, fun a b s t _ h hrun => (execCmp_completed h hrun).2,
    fun i s t h => exec_flagsLegal h, fun i s t v hE h => ?_⟩
  · rcases exec_flags h with ⟨hfl, hflv⟩ | ⟨hcmp, -⟩
    · rcases hchanged with hne | hne
      · exact absurd hfl hne
      · exact absurd hflv hne
    · exact hcmp
  · obtain ⟨w, hexec, hw⟩ := exec_otherFl (fun _ => hE) h
    exact ⟨w, hexec, hw.symm.imp_left And.left⟩

-- The bytes that decode

theorem decodeZ_bytes {i j : Instr} {op : Byte} {bytes rest : List Byte} (hi : encode i = [op])
    (h : decodeZ i bytes = .ok (j, rest)) : op :: bytes = encode j ++ rest := by
  cases h
  rw [hi]
  rfl

theorem decodeR_bytes {mk : Byte → Instr} {i : Instr} {op : Byte} {bytes rest : List Byte}
    (hmk : ∀ a, encode (mk a) = [op, a]) (h : decodeR mk bytes = .ok (i, rest)) : op :: bytes = encode i ++ rest := by
  obtain ⟨a, rfl, rfl⟩ := decodeR_ok h
  rw [hmk]
  rfl

theorem decodeRR_bytes {mk : Byte → Byte → Instr} {i : Instr} {op : Byte} {bytes rest : List Byte}
    (hmk : ∀ a b, encode (mk a b) = [op, a, b]) (h : decodeRR mk bytes = .ok (i, rest)) :
    op :: bytes = encode i ++ rest := by
  obtain ⟨a, b, rfl, rfl⟩ := decodeRR_ok h
  rw [hmk]
  rfl

theorem encode_decode84 (sel : Op84) (a b : Byte) : encode (decode84 sel a b) = [0x84, a, b] := by
  cases sel <;> rfl

/-- What decodes is the encoding of the instruction it decodes to (spec/30_encoding.md R53, R54). -/
theorem bytes_of_decode {sel : Op84} {op : Byte} {i : Instr} {bytes rest : List Byte}
    (h : decode sel (op :: bytes) = .ok (i, rest)) : op :: bytes = encode i ++ rest := by
  rw [decode] at h
  by_cases hop : op ∈ definedOpcodes
  · simp only [definedOpcodes, List.mem_cons, List.not_mem_nil, or_false] at hop
    rcases hop with rfl | rfl | rfl | rfl | rfl | rfl | rfl | rfl | rfl | rfl | rfl | rfl | rfl | rfl
    · exact decodeZ_bytes (i := .hlt) rfl h
    · exact decodeZ_bytes (i := .ret) rfl h
    · exact decodeR_bytes (mk := .push) (fun _ => rfl) h
    · exact decodeR_bytes (mk := .pop) (fun _ => rfl) h
    · exact decodeR_bytes (mk := .prn) (fun _ => rfl) h
    · exact decodeR_bytes (mk := .call) (fun _ => rfl) h
    · exact decodeR_bytes (mk := .jmp) (fun _ => rfl) h
    · exact decodeR_bytes (mk := .jeq) (fun _ => rfl) h
    · exact decodeR_bytes (mk := .jne) (fun _ => rfl) h
    · exact decodeRR_bytes (mk := .ldi) (fun _ _ => rfl) h
    · exact decodeRR_bytes (encode_decode84 sel) h
    · exact decodeRR_bytes (mk := .add) (fun _ _ => rfl) h
    · exact decodeRR_bytes (mk := .cmp) (fun _ _ => rfl) h
    · exact decodeRR_bytes (mk := .and) (fun _ _ => rfl) h
  · rw [decodeOpcode_undefined hop] at h
    cases h

/-- The fetch window begins with the byte at `pc`, which exists wherever `pc` is. -/
theorem fetchWindow_eq_cons (s : State) : ∃ rest, s.fetchWindow = s.byteAt 0 :: rest := by
  rw [fetchWindow_eq]
  split
  · exact ⟨_, rfl⟩
  · split <;> exact ⟨_, rfl⟩

/-- Where the fetch gives a CMP, its opcode byte stands at `pc`. -/
theorem byteAt_zero_of_fetch_cmp {s : State} {a b : Byte} {rest : List Byte}
    (h : decode s.params.op84 s.fetchWindow = .ok (.cmp a b, rest)) : s.byteAt 0 = 0xA7 := by
  obtain ⟨window, hwindow⟩ := fetchWindow_eq_cons s
  rw [hwindow] at h
  exact (List.cons.inj (bytes_of_decode h)).1

-- The flags over one step

theorem step_flv_of_reset {s t : State} (h : step s = .next t) (hrst : s.pins.rst = true) : t.flv = false := by
  rw [step_settle (planCycle_reset hrst)] at h
  cases h
  rfl

/-- In a step without reset the flags stay, or a CMP at `pc` completed and set them (R16). -/
theorem step_flags {s t : State} (h : step s = .next t) (hrst : s.pins.rst = false) :
    s.flagsKept t ∨ (s.ready ∧ s.byteAt 0 = 0xA7 ∧ t.run = .running ∧ t.flv = true) := by
  cases step_cases h with
  | reset hreset => rw [hrst] at hreset; cases hreset
  | idle => rw [idleCycle_frame]; exact .inl ⟨rfl, rfl⟩
  | executed i rest hready hdecode hexec =>
    rcases exec_flags hexec with hkept | ⟨⟨a, b, rfl⟩, hrun, hflv, -⟩
    · exact .inl hkept
    · exact .inr ⟨hready, byteAt_zero_of_fetch_cmp hdecode, hrun.trans hready.1, hflv⟩
  | _ => exact .inl ⟨rfl, rfl⟩

theorem execJeq_unset {s : State} (a : Reg) (hflv : s.flv = false) :
    exec (.jeq (regByte a)) s = .next (s.faultedBy 6 0) := by
  rw [exec, execJeq_eq, if_pos hflv]
  rfl

theorem execJne_unset {s : State} (a : Reg) (hflv : s.flv = false) :
    exec (.jne (regByte a)) s = .next (s.faultedBy 6 0) := by
  rw [exec, execJne_eq, if_pos hflv]
  rfl

/-- Settles O22: reset clears FLV, a completed CMP sets it, no other case of a step writes it; while it is 0 a handler
reads nothing of FL. -/
theorem flagsAreUnsetUntilTheFirstCmp : Obligations.FlagsAreUnsetUntilTheFirstCmp := by
  unfold Obligations.FlagsAreUnsetUntilTheFirstCmp
  refine ⟨fun s t => step_flv_of_reset, fun s t h hrst hset => ?_, fun s t h hunset hset => ?_,
    fun s t a b _ h hrun => (execCmp_completed h hrun).1,
    fun s a hunset => ⟨execJeq_unset a hunset, execJne_unset a hunset⟩, fun i s t v hunset h => ?_⟩
  · rcases step_flags h hrst with ⟨-, hkept⟩ | ⟨-, -, -, hflv⟩
    · exact hkept.trans hset
    · exact hflv
  · have hrst : s.pins.rst = false := by
      by_contra hreset
      simp [step_flv_of_reset h (by simpa using hreset)] at hset
    rcases step_flags h hrst with ⟨-, hkept⟩ | ⟨hready, hop, hrun, -⟩
    · rw [hkept, hunset] at hset
      cases hset
    · exact ⟨hready, hop, hrun⟩
  · obtain ⟨w, hexec, hw⟩ := exec_otherFl (v := v) (fun hset => by rw [hunset] at hset; cases hset) h
    refine ⟨w, hexec, fun hset => ?_⟩
    rcases hw with hw | ⟨-, hkept⟩
    · exact hw
    · rw [hkept, hunset] at hset
      cases hset

-- Other status registers

/-- `t'` is `t` but for HCAUSE, FCAUSE and FINFO: HCAUSE holds `hc`, and the other two hold what a fault in a running
`s` wrote in `t`, or `c` and `f` where `t` runs on. -/
def sameButStatus (s : State) (hc : HaltCause) (c : BitVec 4) (f : Byte) (t t' : State) : Prop :=
  ∃ c' f', t' = { t with hcause := hc, fcause := c', finfo := f' } ∧
    (s.run = .running → t.run = .faulted → c' = t.fcause ∧ f' = t.finfo) ∧
    (s.run = .running → t.run = .running → c' = c ∧ f' = f)

theorem sameButStatus_of_run_eq {s t : State} {hc : HaltCause} {c : BitVec 4} {f : Byte} (hkept : t.run = s.run) :
    sameButStatus s hc c f t { t with hcause := hc, fcause := c, finfo := f } := by
  refine ⟨c, f, rfl, fun hrunning hfaulted => ?_, fun _ _ => ⟨rfl, rfl⟩⟩
  rw [hkept, hrunning] at hfaulted
  cases hfaulted

theorem sameButStatus_raise (s : State) (hc : HaltCause) (c : BitVec 4) (f : Byte) (fault : CoreFault) :
    sameButStatus s hc c f (s.raise fault) { s.raise fault with hcause := hc } :=
  ⟨fault.code, fault.info, rfl, fun _ _ => ⟨rfl, rfl⟩, fun _ => nofun⟩

theorem sameButStatus_endings (i : Instr) (s : State) (hc : HaltCause) (c : BitVec 4) (f : Byte) :
    KeepsRelation (answersRelated (sameButStatus s hc c f)) i s { s with hcause := hc, fcause := c, finfo := f } where
  fault fault := answersRelated_next (sameButStatus_raise s hc c f fault)
  nothing := answersRelated_next (sameButStatus_of_run_eq rfl)
  jump p := answersRelated_next (sameButStatus_of_run_eq (t := s.setPc p) rfl)
  register r v p := answersRelated_next (sameButStatus_of_run_eq (t := (s.writeReg r v).setPc p) rfl)
  registerOnly r v := answersRelated_next (sameButStatus_of_run_eq (t := s.writeReg r v) rfl)
  compare x y p _ := answersRelated_next (sameButStatus_of_run_eq (t := (s.setFlags (compareFlags x y)).setPc p) rfl)
  store a v := answersRelated_next (sameButStatus_of_run_eq (t := s.writeMem a v) rfl)
  output v p := answersRelated_next (sameButStatus_of_run_eq (t := (s.emit v).setPc p) rfl)
  push sp v p := answersRelated_next (sameButStatus_of_run_eq (t := (s.pushAt sp v).setPc p) rfl)
  pop r v sp p := answersRelated_next (sameButStatus_of_run_eq (t := ((s.writeReg r v).setSp sp).setPc p) rfl)
  ret sp p := answersRelated_next (sameButStatus_of_run_eq (t := (s.setSp sp).setPc p) rfl)

/-- Settles O23: the three registers are none of what a handler reads, and every ending but a fault leaves them. -/
theorem statusRegistersAreInvisible : Obligations.StatusRegistersAreInvisible := by
  unfold Obligations.StatusRegistersAreInvisible
  intro i s t hc c f h
  have same : SameReads i s { s with hcause := hc, fcause := c, finfo := f } :=
    ⟨fun _ => rfl, rfl, rfl, rfl, rfl, rfl, fun _ _ => rfl, fun _ _ => rfl⟩
  obtain ⟨_, hexec, c', f', rfl, hfaulted, hrunning⟩ := exec_related same (sameButStatus_endings i s hc c f) t h
  exact ⟨c', f', hexec, hfaulted, hrunning⟩

-- Another value in an unwritten register

/-- `t'` is `t` but for what register `r` holds, and for that too once it was written. -/
def sameButUnwritten (r : Reg) (t t' : State) : Prop :=
  ∃ w, t' = { t with regs := t.regs.set r w } ∧ (t.unwritten r = true ∨ w = t.reg r)

theorem State.unwritten_writeReg_other (s : State) {r q : Reg} (v : Byte) (h : q ≠ r) :
    (s.writeReg r v).unwritten q = s.unwritten q := by
  rw [State.unwritten, State.marked_writeReg_other s v h]
  rfl

section unwritten
variable {r : Reg} {t t' : State}

theorem sameButUnwritten.setPc (h : sameButUnwritten r t t') (p : Byte) :
    sameButUnwritten r (t.setPc p) (t'.setPc p) := by
  obtain ⟨w, rfl, hw⟩ := h
  exact ⟨w, rfl, hw⟩

theorem sameButUnwritten.setFlags (h : sameButUnwritten r t t') (fl : Byte) :
    sameButUnwritten r (t.setFlags fl) (t'.setFlags fl) := by
  obtain ⟨w, rfl, hw⟩ := h
  exact ⟨w, rfl, hw⟩

theorem sameButUnwritten.writeMem (h : sameButUnwritten r t t') (a v : Byte) :
    sameButUnwritten r (t.writeMem a v) (t'.writeMem a v) := by
  obtain ⟨w, rfl, hw⟩ := h
  exact ⟨w, rfl, hw⟩

theorem sameButUnwritten.emit (h : sameButUnwritten r t t') (v : Byte) :
    sameButUnwritten r (t.emit v) (t'.emit v) := by
  obtain ⟨w, rfl, hw⟩ := h
  exact ⟨w, rfl, hw⟩

theorem sameButUnwritten.raise (h : sameButUnwritten r t t') (f : CoreFault) :
    sameButUnwritten r (t.raise f) (t'.raise f) := by
  obtain ⟨w, rfl, hw⟩ := h
  exact ⟨w, rfl, hw⟩

/-- A write of `r` itself makes the two states equal; a write of another register leaves `r` and its mark. -/
theorem sameButUnwritten.writeReg (h : sameButUnwritten r t t') (q : Reg) (v : Byte) :
    sameButUnwritten r (t.writeReg q v) (t'.writeReg q v) := by
  obtain ⟨w, rfl, hw⟩ := h
  by_cases hq : q = r
  · subst hq
    refine ⟨v, ?_, .inr ?_⟩
    · simp only [State.writeReg, Vector.set_set]
      rfl
    · rw [State.reg_writeReg, if_pos rfl]
  · refine ⟨w, ?_, ?_⟩
    · simp only [State.writeReg]
      rw [Vector.set_comm _ _ (Fin.val_ne_of_ne hq)]
      rfl
    · rw [State.unwritten_writeReg_other _ _ (Ne.symm hq), State.reg_writeReg, if_neg hq]
      exact hw

end unwritten

/-- The endings are made of these operations; `pushAt` is a write of SP and a store. -/
theorem sameButUnwritten_endings {i : Instr} {r : Reg} {s s' : State} (h : sameButUnwritten r s s') :
    KeepsRelation (answersRelated (sameButUnwritten r)) i s s' where
  fault f := answersRelated_next (h.raise f)
  nothing := answersRelated_next h
  jump p := answersRelated_next (h.setPc p)
  register q v p := answersRelated_next ((h.writeReg q v).setPc p)
  registerOnly q v := answersRelated_next (h.writeReg q v)
  compare x y p _ := answersRelated_next ((h.setFlags (compareFlags x y)).setPc p)
  store a v := answersRelated_next (h.writeMem a v)
  output v p := answersRelated_next ((h.emit v).setPc p)
  push sp v p := answersRelated_next (((h.writeReg 7 sp).writeMem sp v).setPc p)
  pop q v sp p := answersRelated_next (((h.writeReg q v).writeReg 7 sp).setPc p)
  ret sp p := answersRelated_next ((h.writeReg 7 sp).setPc p)

theorem State.reg_set_other {s : State} {r q : Reg} (v : Byte) (h : q ≠ r) :
    State.reg { s with regs := s.regs.set r v } q = s.reg q := by
  simp only [State.reg, Fin.getElem_fin]
  rw [Vector.getElem_set_ne _ _ (Fin.val_ne_of_ne h.symm)]

/-- A register that may be read is not one that may not. -/
theorem ne_of_unwritten {s : State} {r q : Reg} (hr : s.unwritten r = true) (hq : s.unwritten q = false) : q ≠ r := by
  rintro rfl
  rw [hr] at hq
  cases hq

/-- A handler reads a register only where it may, so what an unwritten one holds is not read; SP has no mark (R25). -/
theorem sameReads_set_unwritten {s : State} {r : Reg} (i : Instr) (v : Byte) (hr : s.unwritten r = true) :
    SameReads i s { s with regs := s.regs.set r v } where
  unwritten _ := rfl
  pc := rfl
  params := rfl
  flv := rfl
  sp := State.reg_set_other v (ne_of_unwritten hr s.unwritten_seven)
  mem := rfl
  reg _ hq := State.reg_set_other v (ne_of_unwritten hr hq)
  flagE _ _ := rfl

/-- Settles O24: what the register holds is not read, and every operation of an ending keeps the two states alike. -/
theorem unwrittenRegistersAreUnobserved : Obligations.UnwrittenRegistersAreUnobserved := by
  unfold Obligations.UnwrittenRegistersAreUnobserved
  intro i s t r v hr h
  have hstart : sameButUnwritten r s { s with regs := s.regs.set r v } := ⟨v, rfl, .inl hr⟩
  obtain ⟨_, hexec, w, rfl, hw⟩ :=
    exec_related (sameReads_set_unwritten i v hr) (sameButUnwritten_endings hstart) t h
  exact ⟨w, hexec, hw⟩

end Sys2Proof.Machine

/-! Proofs of the statements of spec/20_memory.md. A cycle whose fetch is in range runs its handler on the operand bytes; a
handler that completes stored one byte, and the next fetch reads the memory with that byte in it (R42). -/

namespace Sys2Proof.Machine

-- The cycle up to the handler, when all bytes of the instruction are in range

/-- A cycle of format R runs its handler on the byte after the opcode (spec/30_encoding.md R52, R63). -/
theorem step_operandByte {s : State} {mk : Byte → Instr} (h : s.ready)
    (hd : ∀ rest, decode s.params.op84 (s.byteAt 0 :: rest) = decodeR mk rest) (hpc : s.pc.toNat + 1 ≤ 255) :
    step s = exec (mk (s.byteAt 1)) s.beginCycle := by
  have hwindow : ∃ rest, s.fetchWindow = s.byteAt 0 :: s.byteAt 1 :: rest := by
    rw [fetchWindow_eq, if_pos hpc]
    split <;> exact ⟨_, rfl⟩
  obtain ⟨rest, hwindow⟩ := hwindow
  exact step_of_decode (rest := rest) h (by rw [hwindow, hd]; rfl)

/-- A cycle of format RR or RI runs its handler on the two bytes after the opcode (spec/30_encoding.md R52, R63). -/
theorem step_operandBytes {s : State} {mk : Byte → Byte → Instr} (h : s.ready)
    (hd : ∀ rest, decode s.params.op84 (s.byteAt 0 :: rest) = decodeRR mk rest) (hpc : s.pc.toNat + 2 ≤ 255) :
    step s = exec (mk (s.byteAt 1) (s.byteAt 2)) s.beginCycle :=
  step_of_decode (rest := []) h (by rw [fetchWindow_eq, if_pos hpc, hd]; rfl)

theorem step_st {s : State} (h : s.ready) (hsel : s.params.op84 = .st) (hop : s.byteAt 0 = 0x84)
    (hpc : s.pc.toNat + 2 ≤ 255) : step s = exec (.st (s.byteAt 1) (s.byteAt 2)) s.beginCycle :=
  step_operandBytes h (fun _ => by rw [hsel, hop]; rfl) hpc

theorem step_push {s : State} (h : s.ready) (hop : s.byteAt 0 = 0x45) (hpc : s.pc.toNat + 1 ≤ 255) :
    step s = exec (.push (s.byteAt 1)) s.beginCycle :=
  step_operandByte h (fun _ => by rw [hop]; rfl) hpc

theorem step_call {s : State} (h : s.ready) (hop : s.byteAt 0 = 0x50) (hpc : s.pc.toNat + 1 ≤ 255) :
    step s = exec (.call (s.byteAt 1)) s.beginCycle :=
  step_operandByte h (fun _ => by rw [hop]; rfl) hpc

-- What a storing instruction that completes has done

theorem not_running_of_tookFault {s t : State} {operands : List Byte} {codes : List (BitVec 4)}
    (h : tookFault s operands codes t) : t.run ≠ .running := by
  obtain ⟨f, rfl, -⟩ := h
  simp

theorem execSt_completed {a b : Reg} {s t : State} (h : exec (.st (regByte a) (regByte b)) s = .next t)
    (hrun : t.run = .running) : t = s.writeMem (s.reg b) (s.reg a) := by
  rcases execSt_cases h with ⟨a', b', ha, hb, -, -, rfl⟩ | hfault
  · rw [regByte_inj ha, regByte_inj hb]
  · exact absurd hrun (not_running_of_tookFault hfault)

/-- The value pushed is read after the decrement (spec/42_stack.md R101). -/
theorem execPush_completed {a : Reg} {s t : State} (h : exec (.push (regByte a)) s = .next t)
    (hrun : t.run = .running) :
    ∃ p : Byte, p.toNat = s.pc.toNat + 2 ∧
      t = (s.pushAt (s.sp - 1) (if a = 7 then s.sp - 1 else s.reg a)).setPc p := by
  rcases execPush_cases h with ⟨a', p, ha, -, -, hp, rfl⟩ | hfault
  · refine ⟨p, hp, ?_⟩
    simp only [State.reg_setSp, regByte_inj ha, eq_comm (a := (7 : Reg))]
  · exact absurd hrun (not_running_of_tookFault hfault)

/-- The target is read after the decrement (spec/43_control_flow.md R114). -/
theorem execCall_completed {a : Reg} {s t : State} (h : exec (.call (regByte a)) s = .next t)
    (hrun : t.run = .running) :
    t = (s.pushAt (s.sp - 1) (trunc8 (s.pc.toNat + 2))).setPc (if a = 7 then s.sp - 1 else s.reg a) := by
  rcases execCall_cases h with ⟨a', p, ha, -, -, hp, rfl⟩ | hfault
  · have hret : trunc8 (s.pc.toNat + 2) = p := by simp [trunc8, ← hp]
    simp only [State.reg_setSp, regByte_inj ha, hret, eq_comm (a := (7 : Reg))]
  · exact absurd hrun (not_running_of_tookFault hfault)

-- What the next cycle can fetch

theorem State.byteAt_writeMem (s : State) (k : Nat) (addr v : Byte) :
    (s.writeMem addr v).byteAt k = if s.pc.toNat + k = addr.toNat then v else s.byteAt k :=
  s.read_writeMem _ addr v

theorem State.byteAt_pushAt_setPc (s : State) (k : Nat) (sp v p : Byte) :
    ((s.pushAt sp v).setPc p).byteAt k =
      if p.toNat + k = sp.toNat then v else s.mem.read (p.toNat + k) :=
  s.read_pushAt _ sp v

/-- Settles O54: the fetch reads the memory that the handler left, and a completing handler stored one byte there. -/
theorem storeIsSeenByTheNextFetch : Obligations.StoreIsSeenByTheNextFetch := by
  unfold Obligations.StoreIsSeenByTheNextFetch
  refine ⟨fun a b s t hready hsel hop hpc ha hb h hrun => ?_, fun a s t hready hop hpc ha h hrun => ?_,
    fun a s t hready hop hpc ha h hrun => ?_⟩
  · rw [step_st hready hsel hop hpc, ha, hb] at h
    obtain rfl := execSt_completed h hrun
    exact ⟨rfl, fun k => s.beginCycle.byteAt_writeMem k _ _⟩
  · rw [step_push hready hop hpc, ha] at h
    obtain ⟨p, hp, rfl⟩ := execPush_completed h hrun
    refine ⟨hp, fun k => ?_⟩
    rw [State.byteAt_pushAt_setPc, hp, State.byteAt, ← Nat.add_assoc]
    rfl
  · rw [step_call hready hop hpc, ha] at h
    obtain rfl := execCall_completed h hrun
    exact ⟨rfl, fun k => s.beginCycle.byteAt_pushAt_setPc k _ _ _⟩

end Sys2Proof.Machine

/-! Proofs of the statements of spec/30_encoding.md. Decoder and encoder undo each other wherever an encoding exists; a
cycle's fault is decided by the opcode byte (R56), then by the register operand bytes in their order (R58). -/

namespace Sys2Proof.Machine

-- Encodings and the bytes that decode

/-- Byte 0x84 decodes to what OP84 selects (R55). -/
theorem decode_byte84 (sel : Op84) (a b : Byte) (rest : List Byte) :
    decode sel (0x84 :: a :: b :: rest) = .ok (decode84 sel a b, rest) := rfl

theorem decode84_encodable (sel : Op84) (a b : Byte) : (decode84 sel a b).encodable sel = true := by
  cases sel <;> rfl

theorem decode84_of_mul_encodable {sel : Op84} {a b : Byte} (h : (Instr.mul a b).encodable sel = true) :
    decode84 sel a b = .mul a b := by
  cases sel with
  | mul => rfl
  | st => cases h

theorem decode84_of_st_encodable {sel : Op84} {a b : Byte} (h : (Instr.st a b).encodable sel = true) :
    decode84 sel a b = .st a b := by
  cases sel with
  | mul => cases h
  | st => rfl

/-- Every opcode but 0x84 dispatches to one instruction by computation; 0x84 to the one that is encodable. -/
theorem decode_encode {sel : Op84} {i : Instr} (rest : List Byte) (h : i.encodable sel = true) :
    decode sel (encode i ++ rest) = .ok (i, rest) := by
  cases i with
  | mul a b => exact (decode_byte84 sel a b rest).trans (by rw [decode84_of_mul_encodable h])
  | st a b => exact (decode_byte84 sel a b rest).trans (by rw [decode84_of_st_encodable h])
  | _ => rfl

/-- An instruction read back from its own bytes is one that OP84 lets the decoder reach. -/
theorem encodable_of_decode_encode {sel : Op84} {i : Instr} {rest : List Byte}
    (h : decode sel (encode i ++ rest) = .ok (i, rest)) : i.encodable sel = true := by
  have selected {a b : Byte} (hi : encode i = [0x84, a, b]) : i = decode84 sel a b := by
    rw [hi] at h
    cases h
    rfl
  cases i with
  | mul a b => rw [selected rfl, decode84_encodable]
  | st a b => rw [selected rfl, decode84_encodable]
  | _ => rfl

/-- Settles O2: by cases on the instruction; where two share byte 0x84, the encodable one is what OP84 selects. -/
theorem decodeOfEncodeIsTheInstruction : Obligations.DecodeOfEncodeIsTheInstruction := by
  unfold Obligations.DecodeOfEncodeIsTheInstruction
  exact fun sel i rest h => decode_encode rest h

theorem eq_encode_of_decode {sel : Op84} {i : Instr} {bytes rest : List Byte}
    (h : decode sel bytes = .ok (i, rest)) : bytes = encode i ++ rest := by
  cases bytes with
  | nil => cases h
  | cons op bytes => exact bytes_of_decode h

theorem encodable_of_decode {sel : Op84} {i : Instr} {bytes rest : List Byte}
    (h : decode sel bytes = .ok (i, rest)) : i.encodable sel = true := by
  obtain rfl := eq_encode_of_decode h
  exact encodable_of_decode_encode h

/-- Settles O3: what decodes is the bytes of its instruction, and what is read back from its own bytes is encodable. -/
theorem decodedBytesAreTheEncoding : Obligations.DecodedBytesAreTheEncoding := by
  unfold Obligations.DecodedBytesAreTheEncoding
  exact fun sel bytes rest i h => ⟨eq_encode_of_decode h, encodable_of_decode h⟩

/-- Settles O4: MUL and ST are encoded by byte 0x84 alone, and only the one that OP84 selects is encodable. -/
theorem byte84SelectsMulOrSt : Obligations.Byte84SelectsMulOrSt := by
  unfold Obligations.Byte84SelectsMulOrSt
  refine ⟨fun a b rest => ⟨decode_byte84 .mul a b rest, decode_byte84 .st a b rest⟩,
    fun bytes rest a b => ⟨fun h => ?_, fun h => ?_⟩, fun sel op a b bytes rest h => ?_, rfl⟩
  · exact absurd (encodable_of_decode h) (by simp [Instr.encodable])
  · exact absurd (encodable_of_decode h) (by simp [Instr.encodable])
  · rcases h with h | h
    · exact (List.cons.inj (bytes_of_decode h)).1
    · exact (List.cons.inj (bytes_of_decode h)).1

/-- Settles O1: each word is the encoding of the instruction named, under the setting named. -/
theorem opcodeWordsDecode : Obligations.OpcodeWordsDecode := by
  unfold Obligations.OpcodeWordsDecode
  have word {sel : Op84} (i : Instr) (h : i.encodable sel = true) : decode sel (encode i ++ []) = .ok (i, []) :=
    decode_encode [] h
  exact ⟨word (.add 2 3) rfl, word (.and 2 3) rfl, word (.call 5) rfl, word (.cmp 2 3) rfl, word .hlt rfl,
    word (.jeq 5) rfl, word (.jne 5) rfl, word (.jmp 5) rfl, word (.ldi 2 0xFF) rfl, word (.mul 2 3) rfl,
    word (.pop 5) rfl, word (.prn 5) rfl, word (.push 5) rfl, word .ret rfl, word (.st 2 3) rfl⟩

-- The opcode byte decides first

theorem step_undefinedOpcode {s : State} (h : s.ready) (hop : s.byteAt 0 ∉ definedOpcodes) :
    step s = .next (s.beginCycle.faultedBy 1 (s.byteAt 0)) := by
  obtain ⟨rest, hwindow⟩ := fetchWindow_eq_cons s
  have hdecode : decode s.params.op84 s.fetchWindow = .error (.unknownOpcode (s.byteAt 0)) := by
    rw [hwindow, decode, decodeOpcode_undefined hop]
  rw [step_of_decode_error h hdecode, raise_eq_faultedBy]
  rfl

/-- A defined opcode byte whose operands cannot be fetched takes a range fault (R51, R56). -/
theorem fetchFault_code_of_defined {s : State} {e : DecodeError} (hop : s.byteAt 0 ∈ definedOpcodes)
    (h : decode s.params.op84 s.fetchWindow = .error e) : (fetchFault s e).code = 4 := by
  obtain ⟨rest, hwindow⟩ := fetchWindow_eq_cons s
  cases e with
  | missingByte k => rfl
  | unknownOpcode op =>
    rw [hwindow] at h
    exact absurd h (decodeOpcode_ne_unknown hop)

/-- A handler in a running machine that ends faulted took one of its own faults. -/
theorem exec_tookFault {i : Instr} {s t : State} (h : exec i s = .next t) (hrun : s.run = .running)
    (hfaulted : t.run = .faulted) : tookFault s i.regOperands (handlerFaultCodes i) t := by
  rcases exec_completes_or_faults h with ⟨hkept, -⟩ | hfault
  · rw [hkept, hrun] at hfaulted
    cases hfaulted
  · exact hfault

/-- No handler raises UnknownOpcode (spec/60_exceptions.md R141). -/
theorem exec_fcause_ne_one {i : Instr} {s t : State} (h : exec i s = .next t) (hrun : s.run = .running)
    (hfaulted : t.run = .faulted) : t.fcause ≠ 1 := by
  obtain ⟨f, rfl, hlisted, -⟩ := exec_tookFault h hrun hfaulted
  rintro (hcode : f.code = 1)
  rw [hcode] at hlisted
  exact absurd (handlerFaultCodes_subset i hlisted) (by decide)

/-- Settles O5: the fetch window begins with the opcode byte wherever `pc` is, and the decoder looks at it first; past a
defined one only the operand fetch and the handler can fault. -/
theorem unknownOpcodeFaults : Obligations.UnknownOpcodeFaults := by
  unfold Obligations.UnknownOpcodeFaults
  refine ⟨fun s => step_undefinedOpcode, fun s t hready hop h hfaulted => ?_⟩
  cases hdecode : decode s.params.op84 s.fetchWindow with
  | ok p =>
    rw [step_of_decode hready hdecode] at h
    exact exec_fcause_ne_one h hready.1 hfaulted
  | error e =>
    rw [step_of_decode_error hready hdecode] at h
    cases h
    rw [State.raise_fcause]
    exact fun hcode => absurd ((fetchFault_code_of_defined hop hdecode).symm.trans hcode) (by decide)

-- The register operand bytes, the first before the second

section illegal
variable {s : State} {x y b : Byte}

/-- A handler that rejects an illegal byte rejects the first illegal one of its only register operand. -/
theorem rejects_of_find_one {answer : Byte → Host.Outcome State Fault Refusal}
    (hx : ∀ x, 7 < x.toNat → answer x = .next (s.raise (.regIndex x)))
    (h : [x].find? (fun x => decide (7 < x.toNat)) = some b) : answer x = .next (s.faultedBy 3 b) := by
  have hb := List.find?_some h
  obtain rfl := List.mem_singleton.mp (List.mem_of_find?_eq_some h)
  exact hx b (of_decide_eq_true hb)

/-- A handler that rejects an illegal byte 1, and an illegal byte 2 after a legal byte 1, rejects the first illegal
one (R58). -/
theorem rejects_of_find_two {answer : Byte → Byte → Host.Outcome State Fault Refusal}
    (hx : ∀ x y, 7 < x.toNat → answer x y = .next (s.raise (.regIndex x)))
    (hy : ∀ a y, 7 < y.toNat → answer (regByte a) y = .next (s.raise (.regIndex y)))
    (h : [x, y].find? (fun x => decide (7 < x.toNat)) = some b) : answer x y = .next (s.faultedBy 3 b) := by
  obtain ⟨a, rfl⟩ | hgt := byte_cases x
  · have hlegal : ¬ 7 < (regByte a).toNat := by
      rw [regByte_toNat]
      omega
    rw [List.find?_cons_of_neg (by simpa using hlegal)] at h
    exact rejects_of_find_one (hy a) h
  · rw [List.find?_cons_of_pos (by simpa using hgt)] at h
    cases h
    exact hx _ y hgt

end illegal

/-- The first register operand byte above 7 is the fault, whatever the handler would go on to do (R58). -/
theorem exec_illegal {i : Instr} (s : State) {b : Byte}
    (h : i.regOperands.find? (fun x => decide (7 < x.toNat)) = some b) : exec i s = .next (s.faultedBy 3 b) := by
  cases i with
  | add => exact rejects_of_find_two (fun x y => execAdd_illegal x y s) (fun a y => execAdd_illegalB y a s) h
  | and => exact rejects_of_find_two (fun x y => execAnd_illegal x y s) (fun a y => execAnd_illegalB y a s) h
  | cmp => exact rejects_of_find_two (fun x y => execCmp_illegal x y s) (fun a y => execCmp_illegalB y a s) h
  | mul => exact rejects_of_find_two (fun x y => execMul_illegal x y s) (fun a y => execMul_illegalB y a s) h
  | st => exact rejects_of_find_two (fun x y => execSt_illegal x y s) (fun a y => execSt_illegalB y a s) h
  | ldi _ v => exact rejects_of_find_one (fun x => execLdi_illegal x v s) h
  | call => exact rejects_of_find_one (fun x => execCall_illegal x s) h
  | jeq => exact rejects_of_find_one (fun x => execJeq_illegal x s) h
  | jne => exact rejects_of_find_one (fun x => execJne_illegal x s) h
  | jmp => exact rejects_of_find_one (fun x => execJmp_illegal x s) h
  | pop => exact rejects_of_find_one (fun x => execPop_illegal x s) h
  | prn => exact rejects_of_find_one (fun x => execPrn_illegal x s) h
  | push => exact rejects_of_find_one (fun x => execPush_illegal x s) h
  | hlt => cases h
  | ret => cases h

theorem toNat_le_of_wellFormed {i : Instr} {b : Byte} (h : i.wellFormed = true) (hb : b ∈ i.regOperands) :
    b.toNat ≤ 7 :=
  of_decide_eq_true (List.all_eq_true.mp h b hb)

/-- A RegIndexFault names an illegal byte among the register operands, so a well-formed instruction raises none. -/
theorem exec_fcause_ne_three {i : Instr} {s t : State} (hwf : i.wellFormed = true) (hrun : s.run = .running)
    (h : exec i s = .next t) (hfaulted : t.run = .faulted) : t.fcause ≠ 3 := by
  obtain ⟨f, rfl, -, hillegal, -⟩ := exec_tookFault h hrun hfaulted
  intro hcode
  obtain ⟨b, hb, hgt⟩ := hillegal hcode
  exact absurd (toNat_le_of_wellFormed hwf hb) (by omega)

/-- Settles O6: each handler checks its register operands first and in order, and nothing else raises the fault. -/
theorem registerOperandsAreChecked : Obligations.RegisterOperandsAreChecked := by
  unfold Obligations.RegisterOperandsAreChecked
  exact ⟨fun i s b => exec_illegal s, fun r => ⟨regOperand_regByte r, regByte_toNat r⟩,
    fun i s t => exec_fcause_ne_three⟩

end Sys2Proof.Machine

/-! Proofs of the statements of spec/40_alu.md. On readable registers every ALU operation but NOT comes to `aluResult` and
a write-back (`aluApply_of_written`); a cycle of format RR that runs on has read its two register bytes, and a state in
which every cycle changes nothing spins (`run_of_spinning`). -/

namespace Sys2Proof.Machine

-- The values

theorem trunc8_toNat_mod (n : Nat) : (trunc8 n).toNat = n % 256 := BitVec.toNat_ofNat n 8

/-- The comparison said of the values (R75). -/
theorem compareFlags_eq (x y : Byte) :
    compareFlags x y =
      if x.toNat = y.toNat then 0b00000001 else if y.toNat < x.toNat then 0b00000010 else 0b00000100 := by
  simp only [compareFlags, BitVec.toNat_inj]

/-- Each flag alone says its own comparison. -/
theorem compareFlags_iff (x y : Byte) :
    (compareFlags x y = 1 ↔ x.toNat = y.toNat) ∧ (compareFlags x y = 2 ↔ y.toNat < x.toNat) ∧
      (compareFlags x y = 4 ↔ x.toNat < y.toNat) := by
  rw [compareFlags_eq]
  rcases Nat.lt_trichotomy x.toNat y.toNat with hlt | heq | hgt
  · simp [hlt, hlt.ne, hlt.asymm]
  · simp [heq]
  · simp [hgt, hgt.ne', hgt.le]

/-- SHL in a byte is the shift of the number, cut to its low byte (R81). -/
theorem trunc8_shiftLeft (x : Byte) (n : Nat) : trunc8 (x.toNat <<< n) = x <<< n := by
  simp [trunc8, ← BitVec.toNat_inj]

theorem trunc8_shiftRight (x : Byte) (n : Nat) : trunc8 (x.toNat >>> n) = x >>> n := by
  apply BitVec.eq_of_toNat_eq
  rw [BitVec.toNat_ushiftRight, trunc8_toNat]
  exact (Nat.shiftRight_le _ _).trans (Nat.le_of_lt_succ x.isLt)

theorem trunc8_mod (x y : Byte) : trunc8 (x.toNat % y.toNat) = x % y := by
  apply BitVec.eq_of_toNat_eq
  rw [BitVec.toNat_umod, trunc8_toNat]
  exact (Nat.mod_le _ _).trans (Nat.le_of_lt_succ x.isLt)

theorem not_eq_sub (x : Byte) : ~~~x = 255 - x := (BitVec.allOnes_sub_eq_not x).symm

theorem narrow_of_overflow {m : OvfMode} {n : Nat} (hm : m = .fault) (hn : 255 < n) :
    narrow m n = .error (.fault (.resultOverflow (trunc8 n))) := if_pos ⟨hm, hn⟩

-- The ALU on readable registers

section readable
variable {tag : AluTag} {a b : Reg} {s : State} {r : AluResult}

theorem aluApply_of_written (h1 : tag ≠ .not) (h2 : tag ≠ .unsupported) (ha : s.unwritten a = false)
    (hb : s.unwritten b = false) :
    aluApply tag a b s =
      (aluResult s.params.ovfMode tag (s.reg a) (s.reg b) >>= fun r => .ok (aluWriteBack a s r)) := by
  rw [aluApply, aluOperands_binary h1 h2, readReg_of_written ha, readReg_of_written hb]
  rfl

/-- The handlers of ADD, MUL and CMP complete where the result is defined and the advance stays in memory. -/
theorem aluAndAdvance_of_result (h1 : tag ≠ .not) (h2 : tag ≠ .unsupported) (ha : s.unwritten a = false)
    (hb : s.unwritten b = false) (hpc : s.pc.toNat + 3 ≤ 255)
    (hr : aluResult s.params.ovfMode tag (s.reg a) (s.reg b) = .ok r) :
    aluAndAdvance tag (regByte a) (regByte b) s = .ok ((aluWriteBack a s r).setPc (trunc8 (s.pc.toNat + 3))) := by
  simp only [aluAndAdvance, regOperand_regByte, bind_ok, aluApply_of_written h1 h2 ha hb, hr, pcPlus_of_le hpc]

/-- An operation invoked on its own answers what its result comes to. -/
theorem aluInvoke_of_written (h1 : tag ≠ .not) (h2 : tag ≠ .unsupported) (ha : s.unwritten a = false)
    (hb : s.unwritten b = false) :
    aluInvoke tag a b s =
      finish s (aluResult s.params.ovfMode tag (s.reg a) (s.reg b) >>= fun r => .ok (aluWriteBack a s r)) := by
  rw [aluInvoke, aluApply_of_written h1 h2 ha hb]

end readable

-- Frames

/-- Nothing changes but the registers listed, their marks and `pc`, unless by a fault. -/
abbrev State.keptBut (s t : State) (written : List Reg) : Prop :=
  s.regsKeptBut t written ∧ s.flagsKept t ∧ s.memKept t ∧ s.outputKept t ∧ s.statusKept t

theorem writeReg_setPc_keptBut (s : State) {a r : Reg} (v p : Byte) (hr : regByte a = regByte r) :
    s.keptBut ((s.writeReg r v).setPc p) [a] := by
  obtain rfl := regByte_inj hr
  refine ⟨fun q hq => ?_, ⟨rfl, rfl⟩, fun _ => rfl, ⟨rfl, rfl⟩, rfl, rfl, rfl, .inr ⟨rfl, rfl, rfl⟩⟩
  have hne : q ≠ a := by simpa using hq
  rw [State.setPc_reg, State.setPc_marked, State.reg_writeReg, if_neg hne.symm, State.marked_writeReg_other s v hne]
  exact ⟨rfl, rfl⟩

theorem keptBut_of_tookFault {s t : State} {operands : List Byte} {codes : List (BitVec 4)} (written : List Reg)
    (h : tookFault s operands codes t) : s.keptBut t written := by
  obtain ⟨hregs, hrest⟩ := tookFault_frame h
  exact ⟨hregs written, hrest⟩

section frames
variable {a : Reg} {x y : Byte} {s t : State}

theorem execAdd_keptBut (h : exec (.add (regByte a) y) s = .next t) : s.keptBut t [a] := by
  rcases execAdd_cases h with ⟨_, _, p, ha, -, -, -, -, -, rfl⟩ | hfault
  · exact writeReg_setPc_keptBut s _ p ha
  · exact keptBut_of_tookFault [a] hfault

theorem execMul_keptBut (h : exec (.mul (regByte a) y) s = .next t) : s.keptBut t [a] := by
  rcases execMul_cases h with ⟨_, _, p, ha, -, -, -, -, -, rfl⟩ | hfault
  · exact writeReg_setPc_keptBut s _ p ha
  · exact keptBut_of_tookFault [a] hfault

theorem execLdi_keptBut (h : exec (.ldi (regByte a) y) s = .next t) : s.keptBut t [a] := by
  rcases execLdi_cases h with ⟨_, p, ha, -, rfl⟩ | hfault
  · exact writeReg_setPc_keptBut s _ p ha
  · exact keptBut_of_tookFault [a] hfault

theorem execAnd_keptBut (h : exec (.and (regByte a) y) s = .next t) : s.keptBut t [a] := by
  rcases execAnd_cases h with ⟨_, _, ha, -, -, -, rfl⟩ | hfault
  · exact writeReg_setPc_keptBut s _ s.pc ha
  · exact keptBut_of_tookFault [a] hfault

/-- AND leaves `pc` whether it completes or faults (R73). -/
theorem execAnd_pc (h : exec (.and x y) s = .next t) : t.pc = s.pc := by
  rcases execAnd_cases h with ⟨_, _, _, _, _, _, rfl⟩ | ⟨f, rfl, -⟩
  · rfl
  · rfl

end frames

/-- Settles O26: each of the four completes by one write of its first register, or faults. -/
theorem registerInstructionsFrame : Obligations.RegisterInstructionsFrame := by
  unfold Obligations.RegisterInstructionsFrame
  intro a y s t h
  have hkept : s.keptBut t [a] := by
    rcases h with h | h | h | h
    · exact execAdd_keptBut h
    · exact execAnd_keptBut h
    · exact execMul_keptBut h
    · exact execLdi_keptBut h
  obtain ⟨hregs, hflags, hmem, hout, hstatus⟩ := hkept
  exact ⟨hregs, hflags, hmem, hout, hstatus, execAnd_pc⟩

/-- Settles O27: a completed CMP is a write of the flags and of `pc`. -/
theorem compareFrame : Obligations.CompareFrame := by
  unfold Obligations.CompareFrame
  intro x y s t h
  rcases execCmp_cases h with ⟨_, _, _, _, _, _, _, _, rfl⟩ | hfault
  · exact ⟨fun _ _ => ⟨rfl, rfl⟩, fun _ => rfl, ⟨rfl, rfl⟩, rfl, rfl, rfl, .inr ⟨rfl, rfl, rfl⟩⟩
  · obtain ⟨hregs, -, hmem, hout, hstatus⟩ := keptBut_of_tookFault [] hfault
    exact ⟨hregs, hmem, hout, hstatus⟩

-- Whole cycles

/-- Settles O31: the handler's answer in the fault order of R145, put under the operand fetch of format RR. -/
theorem addCycle : Obligations.AddCycle := by
  unfold Obligations.AddCycle
  intro s hready hop
  refine step_formatRR (mk := .add) hready (fun _ => by rw [hop]; rfl) (fun u x y => execAdd_illegal x y u)
    (fun u a y => execAdd_illegalB y a u) fun u a b => ?_
  simp only [exec, execAdd_eq, next_ite]
  rfl

/-- Settles O33: as for ADD, byte 0x84 being MUL under this setting of OP84. -/
theorem mulCycle : Obligations.MulCycle := by
  unfold Obligations.MulCycle
  intro s hready hsel hop
  refine step_formatRR (mk := .mul) hready (fun _ => by rw [hsel, hop]; rfl) (fun u x y => execMul_illegal x y u)
    (fun u a y => execMul_illegalB y a u) fun u a b => ?_
  simp only [exec, execMul_eq, next_ite]
  rfl

/-- Settles O34: as for ADD, with the comparison said of the values. -/
theorem cmpCycle : Obligations.CmpCycle := by
  unfold Obligations.CmpCycle
  intro s hready hop
  refine step_formatRR (mk := .cmp) hready (fun _ => by rw [hop]; rfl) (fun u x y => execCmp_illegal x y u)
    (fun u a y => execCmp_illegalB y a u) fun u a b => ?_
  simp only [exec, execCmp_eq, compareFlags_eq, next_ite]
  rfl

-- Spinning

/-- No boundary of the course asks for reset or a stop. -/
abbrev unstopped (inputs : List InputPins) : Prop :=
  ∀ p ∈ inputs, p.rst = false ∧ p.abort = false ∧ p.cancel = false

/-- The state as it stands, before another course of the inputs. -/
def State.withInputs (s : State) (inputs : List InputPins) : State := { s with inputs := inputs }

theorem withInputs_ready {s : State} {inputs : List InputPins} (hrun : s.run = .running) (hquiet : unstopped inputs) :
    (s.withInputs inputs).ready :=
  ready_of_quiet (s := s.withInputs inputs) hrun hquiet

/-- A state in which every cycle only uses up its inputs stays as it is. -/
theorem run_of_spinning {t : State}
    (hspin : ∀ inputs, unstopped inputs → step (t.withInputs inputs) = .next (t.withInputs inputs.tail)) (n : Nat)
    {inputs : List InputPins} (hquiet : unstopped inputs) :
    core.run n (t.withInputs inputs) = .next (t.withInputs (inputs.drop n)) := by
  induction n generalizing inputs with
  | zero => rfl
  | succ n ih =>
    rw [core_run_succ (hspin inputs hquiet), ih fun p hp => hquiet p (List.mem_of_mem_tail hp), List.drop_tail]

/-- A cycle of format RR that runs on found both operand bytes in memory, each naming a register. -/
theorem cycleRR_running {s : State} {body : State → Reg → Reg → State} (h : (cycleRR s body).run = .running) :
    s.pc.toNat + 2 ≤ 255 ∧ ∃ a b, s.byteAt 1 = regByte a ∧ s.byteAt 2 = regByte b := by
  unfold cycleRR cycleRI at h
  split at h
  · cases h
  split at h
  · cases h
  split at h
  · rename_i h2 ha
    dsimp only at h
    split at h
    · rename_i hb
      exact ⟨by omega, _, _, (regByte_of_lt ha).symm, (regByte_of_lt hb).symm⟩
    · cases h
  · cases h

theorem State.markWritten_of_written {s : State} {r : Reg} (h : s.unwritten r = false) : s.markWritten r = s.xv := by
  unfold State.unwritten State.marked at h
  unfold State.markWritten
  cases hmode : s.params.gprReset with
  | zero => rfl
  | unwritten =>
    by_cases hr : r.val < 7
    · have hmark : s.xv[r.val] = true := by simpa [hmode, hr] using h
      simp only [hr, dif_pos, ← hmark, Vector.set_getElem_self]
    · simp only [hr, dif_neg, not_false_eq_true]

/-- A write of the value that a written register holds changes nothing. -/
theorem State.writeReg_reg {s : State} {r : Reg} (h : s.unwritten r = false) : s.writeReg r (s.reg r) = s := by
  simp only [State.writeReg, State.markWritten_of_written h, State.reg, Fin.getElem_fin, Vector.set_getElem_self]

theorem execAnd_of_written {a b : Reg} {s : State} (ha : s.unwritten a = false) (hb : s.unwritten b = false) :
    exec (.and (regByte a) (regByte b)) s = .next (s.writeReg a (s.reg a &&& s.reg b)) := by
  rw [exec, execAnd_eq, if_neg (by simp [ha]), if_neg (by simp [hb])]

theorem execAnd_completed {a b : Reg} {s t : State} (h : exec (.and (regByte a) (regByte b)) s = .next t)
    (hrun : t.run = .running) :
    s.unwritten b = false ∧ t = s.writeReg a (s.reg a &&& s.reg b) := by
  rcases execAnd_cases h with ⟨a', b', ha, hb, -, wb, rfl⟩ | hfault
  · obtain rfl := regByte_inj ha
    obtain rfl := regByte_inj hb
    exact ⟨wb, rfl⟩
  · exact absurd hrun (not_running_of_tookFault hfault)

/-- The second AND changes nothing: `(v & w) & w = v & w`, and `v & v = v` (R73). -/
theorem execAnd_again {a b : Reg} {s : State} (hb : s.unwritten b = false) :
    exec (.and (regByte a) (regByte b)) (s.writeReg a (s.reg a &&& s.reg b)) =
      .next (s.writeReg a (s.reg a &&& s.reg b)) := by
  have wa := s.unwritten_writeReg_same a (s.reg a &&& s.reg b)
  have wb : (s.writeReg a (s.reg a &&& s.reg b)).unwritten b = false := by
    by_cases hab : b = a
    · subst hab
      exact wa
    · rw [State.unwritten_writeReg_other _ _ hab, hb]
  have hvalue : (s.writeReg a (s.reg a &&& s.reg b)).reg a &&& (s.writeReg a (s.reg a &&& s.reg b)).reg b =
      (s.writeReg a (s.reg a &&& s.reg b)).reg a := by
    simp only [State.reg_writeReg, if_pos]
    split
    · exact BitVec.and_self
    · rw [BitVec.and_assoc, BitVec.and_self]
  rw [execAnd_of_written wa wb, hvalue, State.writeReg_reg wa]

theorem step_and {s : State} (h : s.ready) (hop : s.byteAt 0 = 0xA8) :
    step s = .next (cycleRR s fun u a b =>
      if u.unwritten a = true then u.faultedBy 7 (regByte a)
      else if u.unwritten b = true then u.faultedBy 7 (regByte b)
      else { u with
        regs := u.regs.set a (u.reg a &&& u.reg b)
        xv := u.markWritten a }) := by
  refine step_formatRR (mk := .and) h (fun _ => by rw [hop]; rfl) (fun u x y => execAnd_illegal x y u)
    (fun u a y => execAnd_illegalB y a u) fun u a b => ?_
  simp only [exec, execAnd_eq, next_ite]
  rfl

theorem step_and_regBytes {s : State} {a b : Reg} (h : s.ready) (hop : s.byteAt 0 = 0xA8) (hpc : s.pc.toNat + 2 ≤ 255)
    (ha : s.byteAt 1 = regByte a) (hb : s.byteAt 2 = regByte b) :
    step s = exec (.and (regByte a) (regByte b)) s.beginCycle := by
  rw [step_operandBytes (mk := .and) h (fun _ => by rw [hop]; rfl) hpc, ha, hb]

/-- After a completed AND every cycle fetches the same AND again and changes nothing. -/
theorem step_and_spins {s t : State} (h : s.ready) (hop : s.byteAt 0 = 0xA8) (hstep : step s = .next t)
    (hrun : t.run = .running) :
    t.inputs = s.inputs.tail ∧
      ∀ inputs, unstopped inputs → step (t.withInputs inputs) = .next (t.withInputs inputs.tail) := by
  obtain ⟨hpc, a, b, ha, hb⟩ :
      s.pc.toNat + 2 ≤ 255 ∧ ∃ a b, s.byteAt 1 = regByte a ∧ s.byteAt 2 = regByte b := by
    rw [step_and h hop] at hstep
    cases hstep
    exact cycleRR_running hrun
  rw [step_and_regBytes h hop hpc ha hb] at hstep
  obtain ⟨wb, rfl⟩ := execAnd_completed hstep hrun
  refine ⟨rfl, fun inputs hquiet => ?_⟩
  rw [step_and_regBytes (withInputs_ready hrun hquiet) hop hpc ha hb]
  exact execAnd_again (s := s.beginCycle.withInputs inputs.tail) wb

/-- Settles O32: the whole cycle is that of format RR; a completed AND leaves a spinning state. -/
theorem andCycle : Obligations.AndCycle := by
  unfold Obligations.AndCycle
  refine ⟨fun s => step_and, fun n s t hrunning hop hquiet hstep hrun => ?_⟩
  obtain ⟨hinputs, hspin⟩ := step_and_spins (ready_of_quiet hrunning hquiet) hop hstep hrun
  have htail : unstopped s.inputs.tail := fun p hp => hquiet p (List.mem_of_mem_tail hp)
  rw [core_run_succ hstep, ← List.drop_tail]
  rw [← hinputs] at htail ⊢
  exact run_of_spinning hspin n htail

-- Completion

theorem State.reg_writeReg_same (s : State) (r : Reg) (v : Byte) : (s.writeReg r v).reg r = v := by
  rw [State.reg_writeReg, if_pos rfl]

section completes
variable {a b : Reg} {s : State}

/-- ADD and MUL: the result `n` fits or is cut to its low byte (R71). -/
theorem aluAndAdvance_completes {tag : AluTag} {n : Nat} (h1 : tag ≠ .not) (h2 : tag ≠ .unsupported)
    (ha : s.unwritten a = false) (hb : s.unwritten b = false)
    (hr : aluResult s.params.ovfMode tag (s.reg a) (s.reg b) = narrow s.params.ovfMode n)
    (hpc : s.pc.toNat + 3 ≤ 255) (hfit : s.params.ovfMode = .wrap ∨ n ≤ 255) :
    ∃ t, finish s (aluAndAdvance tag (regByte a) (regByte b) s) = .next t ∧
      (t.reg a).toNat = n % 256 ∧ t.pc.toNat = s.pc.toNat + 3 ∧ t.run = s.run := by
  rw [narrow_of_fits hfit] at hr
  rw [aluAndAdvance_of_result h1 h2 ha hb hpc hr]
  refine ⟨_, rfl, ?_, trunc8_toNat hpc, rfl⟩
  rw [State.setPc_reg, aluWriteBack, State.reg_writeReg_same, trunc8_toNat_mod]

theorem execCmp_completes (ha : s.unwritten a = false) (hb : s.unwritten b = false) (hpc : s.pc.toNat + 3 ≤ 255) :
    exec (.cmp (regByte a) (regByte b)) s =
      .next ((s.setFlags (compareFlags (s.reg a) (s.reg b))).setPc (trunc8 (s.pc.toNat + 3))) := by
  rw [exec, execCmp, aluAndAdvance_of_result (by decide) (by decide) ha hb hpc rfl]
  rfl

end completes

/-- Settles O46: the sum and the product by what narrowing leaves of them, CMP and AND by the state they complete in. -/
theorem aluInstructionsComplete : Obligations.AluInstructionsComplete := by
  unfold Obligations.AluInstructionsComplete
  intro a b s ha hb
  obtain ⟨hequal, hgreater, hless⟩ := compareFlags_iff (s.reg a) (s.reg b)
  refine ⟨aluAndAdvance_completes (tag := .add) (by decide) (by decide) ha hb rfl,
    aluAndAdvance_completes (tag := .mul) (by decide) (by decide) ha hb rfl,
    fun hpc => ⟨_, execCmp_completes ha hb hpc, hequal, hgreater, hless, rfl, trunc8_toNat hpc, rfl⟩,
    ⟨_, execAnd_of_written ha hb, fun k _ => ?_, rfl, rfl⟩⟩
  rw [State.reg_writeReg_same, BitVec.getLsbD_and]

-- The dead operations

section dead
variable {a b : Reg} {s : State}

/-- SHL under wrap, or with a result that fits (R81). -/
theorem aluInvoke_shl_of_fits (ha : s.unwritten a = false) (hb : s.unwritten b = false)
    (hfit : s.params.ovfMode = .wrap ∨ (s.reg a).toNat * 2 ^ (s.reg b).toNat ≤ 255) :
    aluInvoke .shl a b s = .next (s.writeReg a (s.reg a <<< (s.reg b).toNat)) := by
  rw [← Nat.shiftLeft_eq] at hfit
  rw [aluInvoke_of_written (by decide) (by decide) ha hb, aluResult, narrow_of_fits hfit, trunc8_shiftLeft]
  rfl

theorem aluInvoke_shl_of_overflow (ha : s.unwritten a = false) (hb : s.unwritten b = false)
    (hm : s.params.ovfMode = .fault) (hgt : 255 < (s.reg a).toNat * 2 ^ (s.reg b).toNat) :
    aluInvoke .shl a b s = .next (s.faultedBy 8 (trunc8 ((s.reg a).toNat * 2 ^ (s.reg b).toNat))) := by
  rw [← Nat.shiftLeft_eq] at hgt ⊢
  rw [aluInvoke_of_written (by decide) (by decide) ha hb, aluResult, narrow_of_overflow hm hgt]
  rfl

theorem aluInvoke_shr (ha : s.unwritten a = false) (hb : s.unwritten b = false) :
    aluInvoke .shr a b s = .next (s.writeReg a (s.reg a >>> (s.reg b).toNat)) := by
  rw [aluInvoke_of_written (by decide) (by decide) ha hb, aluResult, trunc8_shiftRight]
  rfl

theorem aluInvoke_mod (ha : s.unwritten a = false) (hb : s.unwritten b = false) (hne : s.reg b ≠ 0) :
    aluInvoke .mod a b s = .next (s.writeReg a (s.reg a % s.reg b)) := by
  rw [aluInvoke_of_written (by decide) (by decide) ha hb, aluResult, if_neg hne, trunc8_mod]
  rfl

theorem aluInvoke_mod_zero (ha : s.unwritten a = false) (hb : s.unwritten b = false) (hzero : s.reg b = 0) :
    aluInvoke .mod a b s = .refused .modZeroDivisor := by
  rw [aluInvoke_of_written (by decide) (by decide) ha hb, aluResult, if_pos hzero]
  rfl

/-- NOT reads its first register alone (R80). -/
theorem aluInvoke_not (b : Reg) (ha : s.unwritten a = false) :
    aluInvoke .not a b s = .next (s.writeReg a (255 - s.reg a)) := by
  rw [aluInvoke, aluApply, aluOperands, readReg_of_written ha, ← not_eq_sub]
  rfl

end dead

theorem exec_fcause_mem {i : Instr} {s t : State} (h : exec i s = .next t) (hrun : s.run = .running)
    (hfaulted : t.run = .faulted) : t.fcause ∈ handlerFaultCodes i := by
  obtain ⟨f, rfl, hlisted, -⟩ := exec_tookFault h hrun hfaulted
  exact hlisted

/-- No handler raises UnsupportedAluOp (R77). -/
theorem exec_fcause_ne_two {i : Instr} {s t : State} (h : exec i s = .next t) (hrun : s.run = .running)
    (hfaulted : t.run = .faulted) : t.fcause ≠ 2 := by
  intro hcode
  have hlisted := handlerFaultCodes_subset i (exec_fcause_mem h hrun hfaulted)
  rw [hcode] at hlisted
  exact absurd hlisted (by decide)

/-- Settles O53: each operation is its result and a write-back; code 2 is listed for no handler. -/
theorem deadAluOperations : Obligations.DeadAluOperations := by
  unfold Obligations.DeadAluOperations
  refine ⟨fun a b s ha hb => ⟨?or, ?xor, fun hm => aluInvoke_shl_of_fits ha hb (.inl hm), fun hm hcount => ?shlOut,
    aluInvoke_shl_of_overflow ha hb, fun _ hfit => aluInvoke_shl_of_fits ha hb (.inr hfit), aluInvoke_shr ha hb,
    fun hcount => ?shrOut, aluInvoke_mod ha hb, aluInvoke_mod_zero ha hb⟩,
    fun a b s => aluInvoke_not b, fun a b s => rfl, fun i s t hrun h => exec_fcause_ne_two h hrun⟩
  case or => exact aluInvoke_of_written (by decide) (by decide) ha hb
  case xor => exact aluInvoke_of_written (by decide) (by decide) ha hb
  case shlOut => rw [aluInvoke_shl_of_fits ha hb (.inl hm), BitVec.shiftLeft_eq_zero hcount]; rfl
  case shrOut => rw [aluInvoke_shr ha hb, BitVec.ushiftRight_eq_zero hcount]; rfl

end Sys2Proof.Machine

/-! Proofs of the statements of spec/41_data_movement_io.md. A handler that completes did one write, so its frame is
that of the write (`setPc_keptBut`, `pushAt_setPc_keptButCell`); a store made a second time changes nothing, so ST spins
unless it hit its own bytes (`step_st_spins`). -/

namespace Sys2Proof.Machine

-- Frames

theorem setPc_keptBut (s : State) (p : Byte) : s.keptBut (s.setPc p) [] :=
  ⟨fun _ _ => ⟨rfl, rfl⟩, ⟨rfl, rfl⟩, fun _ => rfl, ⟨rfl, rfl⟩, rfl, rfl, rfl, .inr ⟨rfl, rfl, rfl⟩⟩

section transfers
variable {x : Byte} {s t : State}

theorem execJmp_keptBut (h : exec (.jmp x) s = .next t) : s.keptBut t [] := by
  rcases execJmp_cases h with ⟨_, _, _, rfl⟩ | hfault
  · exact setPc_keptBut s _
  · exact keptBut_of_tookFault [] hfault

/-- JEQ and JNE, taken or not. -/
theorem jumpIf_keptBut {taken : Bool → Bool} (h : finish s (jumpIf taken x s) = .next t) : s.keptBut t [] := by
  rcases jumpIf_cases h with ⟨_, _, _, ⟨_, _, rfl⟩ | ⟨_, _, _, rfl⟩⟩ | hfault
  · exact setPc_keptBut s _
  · exact setPc_keptBut s _
  · exact keptBut_of_tookFault [] hfault

theorem execHlt_keptBut (h : exec .hlt s = .next t) : s.keptBut t [] := by
  obtain rfl := execHlt_cases h
  exact setPc_keptBut t t.pc

theorem execPrn_frame (h : exec (.prn x) s = .next t) :
    s.regsKeptBut t [] ∧ s.flagsKept t ∧ s.memKept t ∧ s.statusKept t := by
  rcases execPrn_cases h with ⟨_, _, _, _, _, rfl⟩ | hfault
  · exact ⟨fun _ _ => ⟨rfl, rfl⟩, ⟨rfl, rfl⟩, fun _ => rfl, rfl, rfl, rfl, .inr ⟨rfl, rfl, rfl⟩⟩
  · obtain ⟨hregs, hflags, hmem, -, hstatus⟩ := keptBut_of_tookFault [] hfault
    exact ⟨hregs, hflags, hmem, hstatus⟩

end transfers

/-- Settles O28: a completed jump is a write of `pc`, a completed PRN of the output and `pc`, and HLT is no write. -/
theorem jumpHaltAndOutputFrame : Obligations.JumpHaltAndOutputFrame := by
  unfold Obligations.JumpHaltAndOutputFrame
  refine fun x s t => ⟨fun h => ?_, execHlt_cases, execPrn_frame⟩
  rcases h with h | h | h | h
  · exact execJmp_keptBut h
  · exact jumpIf_keptBut h
  · exact jumpIf_keptBut h
  · exact execHlt_keptBut h

/-- Nothing changes but the registers listed, `pc` and the byte at one address, unless by a fault. -/
abbrev State.keptButCell (s t : State) (written : List Reg) (cell : Byte) : Prop :=
  s.regsKeptBut t written ∧ s.flagsKept t ∧ s.outputKept t ∧ s.statusKept t ∧
  ∀ addr : Nat, addr ≠ cell.toNat → t.mem.read addr = s.mem.read addr

theorem writeMem_keptButCell (s : State) (cell v : Byte) : s.keptButCell (s.writeMem cell v) [] cell :=
  ⟨fun _ _ => ⟨rfl, rfl⟩, ⟨rfl, rfl⟩, ⟨rfl, rfl⟩, ⟨rfl, rfl, rfl, .inr ⟨rfl, rfl, rfl⟩⟩,
    fun _ => Memory.read_write_other s.mem v⟩

theorem pushAt_setPc_keptButCell (s : State) (sp v p : Byte) :
    s.keptButCell ((s.pushAt sp v).setPc p) [7] sp := by
  refine ⟨fun r hr => ⟨?_, s.marked_pushAt r sp v⟩, ⟨rfl, rfl⟩, ⟨rfl, rfl⟩,
    ⟨rfl, rfl, rfl, .inr ⟨rfl, rfl, rfl⟩⟩, fun _ => Memory.read_write_other s.mem v⟩
  have hne : r ≠ 7 := by simpa using hr
  rw [State.setPc_reg, State.reg_pushAt, if_neg hne.symm]

theorem keptButCell_of_tookFault {s t : State} {operands : List Byte} {codes : List (BitVec 4)} (written : List Reg)
    (cell : Byte) (h : tookFault s operands codes t) : s.keptButCell t written cell := by
  obtain ⟨hregs, hflags, hmem, hout, hstatus⟩ := keptBut_of_tookFault written h
  exact ⟨hregs, hflags, hout, hstatus, fun addr _ => hmem addr⟩

section stores
variable {x y : Byte} {b : Reg} {s t : State}

/-- ST leaves `pc` whether it completes or faults (R91). -/
theorem execSt_pc (h : exec (.st x y) s = .next t) : t.pc = s.pc := by
  rcases execSt_cases h with ⟨_, _, _, _, _, _, rfl⟩ | ⟨f, rfl, -⟩
  · rfl
  · rfl

theorem execSt_keptButCell (h : exec (.st x (regByte b)) s = .next t) : s.keptButCell t [] (s.reg b) := by
  rcases execSt_cases h with ⟨_, _, _, hb, _, _, rfl⟩ | hfault
  · obtain rfl := regByte_inj hb
    exact writeMem_keptButCell s _ _
  · exact keptButCell_of_tookFault [] _ hfault

theorem execPush_keptButCell (h : exec (.push x) s = .next t) : s.keptButCell t [7] (s.sp - 1) := by
  rcases execPush_cases h with ⟨_, _, _, _, _, _, rfl⟩ | hfault
  · exact pushAt_setPc_keptButCell s _ _ _
  · exact keptButCell_of_tookFault [7] _ hfault

theorem execCall_keptButCell (h : exec (.call x) s = .next t) : s.keptButCell t [7] (s.sp - 1) := by
  rcases execCall_cases h with ⟨_, _, _, _, _, _, rfl⟩ | hfault
  · exact pushAt_setPc_keptButCell s _ _ _
  · exact keptButCell_of_tookFault [7] _ hfault

end stores

/-- Settles O30: a completed ST is one store, a completed PUSH or CALL one push and a write of `pc`. -/
theorem storingInstructionsFrame : Obligations.StoringInstructionsFrame := by
  unfold Obligations.StoringInstructionsFrame
  refine fun x b s t => ⟨fun h => ⟨execSt_pc h, execSt_keptButCell h⟩, fun h => ?_⟩
  rcases h with h | h
  · exact execPush_keptButCell h
  · exact execCall_keptButCell h

-- Whole cycles

/-- Settles O35: the operand fetch of format RI checks the first byte alone, and the handler takes the second as it
stands. -/
theorem ldiCycle : Obligations.LdiCycle := by
  unfold Obligations.LdiCycle
  intro s hready hop
  refine step_twoBytes (mk := .ldi) hready (fun _ => by rw [hop]; rfl) (fun u x y => execLdi_illegal x y u)
    fun u a y => ?_
  simp only [exec, execLdi_eq, next_ite]
  rfl

/-- Settles O37: the handler's answer in the fault order of R145, put under the operand fetch of format R. -/
theorem prnCycle : Obligations.PrnCycle := by
  unfold Obligations.PrnCycle
  intro s hready hop
  refine step_formatR (mk := .prn) hready (fun _ => by rw [hop]; rfl) (fun u x => execPrn_illegal x u) fun u a => ?_
  simp only [exec, execPrn_eq, next_ite]
  rfl

theorem step_st_cycleRR {s : State} (h : s.ready) (hsel : s.params.op84 = .st) (hop : s.byteAt 0 = 0x84) :
    step s = .next (cycleRR s fun u a b =>
      if u.unwritten a = true then u.faultedBy 7 (regByte a)
      else if u.unwritten b = true then u.faultedBy 7 (regByte b)
      else { u with mem := u.mem.write (u.reg b).toNat (u.reg a) }) := by
  refine step_formatRR (mk := .st) h (fun _ => by rw [hsel, hop]; rfl) (fun u x y => execSt_illegal x y u)
    (fun u a y => execSt_illegalB y a u) fun u a b => ?_
  simp only [exec, execSt_eq, next_ite]
  rfl

-- ST spins

/-- A run that goes on in a spinning state: nothing changes after its first cycle but the inputs used up. -/
theorem run_succ_of_spinning {s t : State} (n : Nat) (hquiet : unstopped s.inputs) (hstep : step s = .next t)
    (hinputs : t.inputs = s.inputs.tail)
    (hspin : ∀ inputs, unstopped inputs → step (t.withInputs inputs) = .next (t.withInputs inputs.tail)) :
    core.run (n + 1) s = .next (t.withInputs (s.inputs.drop (n + 1))) := by
  have htail : unstopped s.inputs.tail := fun p hp => hquiet p (List.mem_of_mem_tail hp)
  rw [core_run_succ hstep, ← List.drop_tail]
  rw [← hinputs] at htail ⊢
  exact run_of_spinning hspin n htail

theorem execSt_of_written {a b : Reg} {s : State} (ha : s.unwritten a = false) (hb : s.unwritten b = false) :
    exec (.st (regByte a) (regByte b)) s = .next (s.writeMem (s.reg b) (s.reg a)) := by
  rw [exec, execSt_eq, if_neg (by simp [ha]), if_neg (by simp [hb])]

theorem State.writeMem_writeMem (s : State) (addr v w : Byte) :
    (s.writeMem addr v).writeMem addr w = s.writeMem addr w := by
  simp only [State.writeMem, Memory.write_write]

theorem execSt_readable {a b : Reg} {s t : State} (h : exec (.st (regByte a) (regByte b)) s = .next t)
    (hrun : t.run = .running) : s.unwritten a = false ∧ s.unwritten b = false := by
  rcases execSt_cases h with ⟨_, _, ha, hb, wa, wb, -⟩ | hfault
  · obtain rfl := regByte_inj ha
    obtain rfl := regByte_inj hb
    exact ⟨wa, wb⟩
  · exact absurd hrun (not_running_of_tookFault hfault)

/-- The second ST stores the same byte in the same cell. -/
theorem execSt_again {a b : Reg} {s : State} (ha : s.unwritten a = false) (hb : s.unwritten b = false) :
    exec (.st (regByte a) (regByte b)) (s.writeMem (s.reg b) (s.reg a)) =
      .next (s.writeMem (s.reg b) (s.reg a)) := by
  rw [execSt_of_written ((s.writeMem_unwritten a _ _).trans ha) ((s.writeMem_unwritten b _ _).trans hb),
    State.writeMem_reg, State.writeMem_reg, State.writeMem_writeMem]

/-- A store outside an instruction's three bytes leaves them as they are. -/
theorem State.byteAt_writeMem_outside {s : State} {addr : Byte} (v : Byte) {k : Nat} (hk : k ≤ 2)
    (houtside : addr.toNat < s.pc.toNat ∨ s.pc.toNat + 2 < addr.toNat) :
    (s.writeMem addr v).byteAt k = s.byteAt k := by
  rw [State.byteAt_writeMem, if_neg (by omega)]

theorem step_st_regBytes {s : State} {a b : Reg} (h : s.ready) (hsel : s.params.op84 = .st) (hop : s.byteAt 0 = 0x84)
    (hpc : s.pc.toNat + 2 ≤ 255) (ha : s.byteAt 1 = regByte a) (hb : s.byteAt 2 = regByte b) :
    step s = exec (.st (regByte a) (regByte b)) s.beginCycle := by
  rw [step_st h hsel hop hpc, ha, hb]

/-- After a completed ST outside its own bytes every cycle fetches the same ST again and changes nothing. -/
theorem step_st_spins {b : Reg} {s t : State} (h : s.ready) (hsel : s.params.op84 = .st) (hop : s.byteAt 0 = 0x84)
    (hb : s.byteAt 2 = regByte b) (houtside : (s.reg b).toNat < s.pc.toNat ∨ s.pc.toNat + 2 < (s.reg b).toNat)
    (hstep : step s = .next t) (hrun : t.run = .running) :
    t.inputs = s.inputs.tail ∧
      ∀ inputs, unstopped inputs → step (t.withInputs inputs) = .next (t.withInputs inputs.tail) := by
  obtain ⟨hpc, a, _, ha, -⟩ :
      s.pc.toNat + 2 ≤ 255 ∧ ∃ a b, s.byteAt 1 = regByte a ∧ s.byteAt 2 = regByte b := by
    rw [step_st_cycleRR h hsel hop] at hstep
    cases hstep
    exact cycleRR_running hrun
  rw [step_st_regBytes h hsel hop hpc ha hb] at hstep
  obtain ⟨wa, wb⟩ := execSt_readable hstep hrun
  obtain rfl := execSt_completed hstep hrun
  refine ⟨rfl, fun inputs hquiet => ?_⟩
  have hkept : ∀ k ≤ 2, (s.writeMem (s.reg b) (s.reg a)).byteAt k = s.byteAt k :=
    fun k hk => State.byteAt_writeMem_outside _ hk houtside
  rw [step_st_regBytes (withInputs_ready hrun hquiet) hsel ((hkept 0 (by decide)).trans hop) hpc
    ((hkept 1 (by decide)).trans ha) ((hkept 2 (by decide)).trans hb)]
  exact execSt_again (s := s.beginCycle.withInputs inputs.tail) wa wb

/-- Settles O36: the whole cycle is that of format RR; a completed ST outside its own bytes leaves a spinning state. -/
theorem stCycle : Obligations.StCycle := by
  unfold Obligations.StCycle
  refine ⟨fun s => step_st_cycleRR, fun n b s t hrunning hsel hop hb houtside hquiet hstep hrun => ?_⟩
  obtain ⟨hinputs, hspin⟩ := step_st_spins (ready_of_quiet hrunning hquiet) hsel hop hb houtside hstep hrun
  exact run_succ_of_spinning n hquiet hstep hinputs hspin

-- Completion

theorem execLdi_of_le {a : Reg} (v : Byte) {s : State} (hpc : s.pc.toNat + 3 ≤ 255) :
    exec (.ldi (regByte a) v) s = .next ((s.writeReg a v).setPc (trunc8 (s.pc.toNat + 3))) := by
  rw [exec, execLdi_eq, if_neg (by omega)]

theorem execPrn_of_written {a : Reg} {s : State} (ha : s.unwritten a = false) (hpc : s.pc.toNat + 2 ≤ 255) :
    exec (.prn (regByte a)) s = .next ((s.emit (s.reg a)).setPc (trunc8 (s.pc.toNat + 2))) := by
  rw [exec, execPrn_eq, if_neg (by simp [ha]), if_neg (by omega)]

/-- Settles O47: each of the three by the state it completes in. -/
theorem dataInstructionsComplete : Obligations.DataInstructionsComplete := by
  unfold Obligations.DataInstructionsComplete
  intro a b imm8 s
  exact ⟨fun hpc => ⟨_, execLdi_of_le imm8 hpc, s.reg_writeReg_same a imm8, s.unwritten_writeReg_same a imm8,
      trunc8_toNat hpc, rfl⟩,
    fun ha hpc => ⟨_, execPrn_of_written ha hpc, rfl, rfl, trunc8_toNat hpc, rfl⟩,
    fun ha hb => ⟨_, execSt_of_written ha hb, s.mem.read_write_same _ _, rfl, rfl⟩⟩

end Sys2Proof.Machine

/-! Proofs of the statements of spec/42_stack.md. A PUSH and a POP that complete come to `State.afterPush` and
`State.afterPop`. A PUSH leaves in its register the byte it pushed, R7 included, so the POP after it writes the register
with what it holds already (`execPop_afterPush`). -/

namespace Sys2Proof.Machine

-- Writing SP

/-- SP has no mark, so a write of it writes one register and nothing else (spec/10_state.md R25). -/
theorem State.setSp_eq (s : State) (v : Byte) : s.setSp v = { s with regs := s.regs.set 7 v } := by
  rw [State.setSp, State.writeReg, Config.spIndex, State.markWritten_seven]
  rfl

theorem State.pushAt_eq (s : State) (sp v : Byte) :
    s.pushAt sp v = { s with regs := s.regs.set 7 sp, mem := s.mem.write sp.toNat v } := by
  rw [State.pushAt, State.setSp_eq, State.writeMem]

theorem State.sp_setSp (s : State) (v : Byte) : (s.setSp v).sp = v := s.reg_writeReg_same 7 v

theorem State.reg_setSp_other (s : State) {r : Reg} (v : Byte) (h : r ≠ 7) : (s.setSp v).reg r = s.reg r := by
  rw [State.reg_setSp, if_neg h.symm]

-- Frames

theorem setSp_setPc_keptBut (s : State) (sp p : Byte) : s.keptBut ((s.setSp sp).setPc p) [7] :=
  writeReg_setPc_keptBut s sp p rfl

theorem writeReg_setSp_setPc_keptBut (s : State) (a : Reg) (v sp p : Byte) :
    s.keptBut (((s.writeReg a v).setSp sp).setPc p) [a, 7] := by
  refine ⟨fun q hq => ?_, ⟨rfl, rfl⟩, fun _ => rfl, ⟨rfl, rfl⟩, rfl, rfl, rfl, .inr ⟨rfl, rfl, rfl⟩⟩
  obtain ⟨hqa, hq7⟩ : q ≠ a ∧ q ≠ 7 := by simpa using hq
  rw [State.setPc_reg, State.setPc_marked, State.reg_setSp_other _ _ hq7, State.reg_writeReg, if_neg hqa.symm,
    State.marked_setSp, State.marked_writeReg_other s v hqa]
  exact ⟨rfl, rfl⟩

theorem execPop_keptBut {a : Reg} {s t : State} (h : exec (.pop (regByte a)) s = .next t) : s.keptBut t [a, 7] := by
  rcases execPop_cases h with ⟨_, p, ha, -, -, rfl⟩ | hfault
  · obtain rfl := regByte_inj ha
    exact writeReg_setSp_setPc_keptBut s a _ _ p
  · exact keptBut_of_tookFault [a, 7] hfault

theorem execRet_keptBut {s t : State} (h : exec .ret s = .next t) : s.keptBut t [7] := by
  rcases execRet_cases h with ⟨-, rfl⟩ | hfault
  · exact setSp_setPc_keptBut s _ _
  · exact keptBut_of_tookFault [7] hfault

/-- Settles O29: a completed POP writes its register, SP and `pc`, a completed RET SP and `pc`. -/
theorem popAndRetFrame : Obligations.PopAndRetFrame := by
  unfold Obligations.PopAndRetFrame
  exact fun a s t => ⟨execPop_keptBut, execRet_keptBut⟩

-- Whole cycles

/-- Settles O38: the handler's answer in the fault order of R145, put under the operand fetch of format R. -/
theorem pushCycle : Obligations.PushCycle := by
  unfold Obligations.PushCycle
  intro s hready hop
  refine step_formatR (mk := .push) hready (fun _ => by rw [hop]; rfl) (fun u x => execPush_illegal x u) fun u a => ?_
  simp only [exec, execPush_eq, State.pushAt_eq, next_ite]
  rfl

/-- Settles O39: as for PUSH, with SP read after the write of the register. -/
theorem popCycle : Obligations.PopCycle := by
  unfold Obligations.PopCycle
  intro s hready hop
  refine step_formatR (mk := .pop) hready (fun _ => by rw [hop]; rfl) (fun u x => execPop_illegal x u) fun u a => ?_
  simp only [exec, execPop_eq, State.setSp_eq, next_ite]
  rfl

-- The states that PUSH and POP complete in

/-- The state after a PUSH of the register: decrement-then-store, the value read after the decrement (R101). -/
def State.afterPush (s : State) (a : Reg) : State :=
  (s.pushAt (s.sp - 1) ((s.setSp (s.sp - 1)).reg a)).setPc (trunc8 (s.pc.toNat + 2))

/-- The register written with the byte at SP: the first half of a POP (R102). -/
def State.loadTop (s : State) (a : Reg) : State := s.writeReg a (s.readMem s.sp)

/-- The state after a POP to the register: load-then-increment, SP read after the load (R102). -/
def State.afterPop (s : State) (a : Reg) : State :=
  ((s.loadTop a).setSp ((s.loadTop a).sp + 1)).setPc (trunc8 (s.pc.toNat + 2))

theorem execPush_of_written {a : Reg} {s : State} (ha : s.unwritten a = false) (hsp : s.sp ≠ 0x00)
    (hpc : s.pc.toNat + 2 ≤ 255) : exec (.push (regByte a)) s = .next (s.afterPush a) := by
  simp only [exec, execPush, regOperand_regByte, readReg_of_written ha, stackDown_of_ne hsp, pcPlus_of_le hpc, bind_ok,
    finish_ok, State.afterPush]

theorem execPop_of_ne {a : Reg} {s : State} (hsp : (s.loadTop a).sp ≠ 0xFF) (hpc : s.pc.toNat + 2 ≤ 255) :
    exec (.pop (regByte a)) s = .next (s.afterPop a) := by
  rw [State.loadTop] at hsp
  simp only [exec, execPop, regOperand_regByte, stackUp_of_ne hsp, pcPlus_of_le hpc, bind_ok, finish_ok, State.afterPop,
    State.loadTop]

section afterPush
variable (s : State) (a r : Reg)

theorem State.afterPush_sp : (s.afterPush a).sp = s.sp - 1 := s.sp_setSp (s.sp - 1)

theorem State.afterPush_reg_other {r : Reg} (h : r ≠ 7) : (s.afterPush a).reg r = s.reg r := s.reg_setSp_other _ h

theorem State.afterPush_unwritten : (s.afterPush a).unwritten r = s.unwritten r := by
  rw [State.afterPush, State.pushAt_eq]
  rfl

theorem State.afterPush_pc {s : State} (h : s.pc.toNat + 2 ≤ 255) : (s.afterPush a).pc.toNat = s.pc.toNat + 2 :=
  trunc8_toNat h

/-- The byte pushed is what the register holds afterwards. -/
theorem State.afterPush_readMem_sp : (s.afterPush a).readMem (s.afterPush a).sp = (s.afterPush a).reg a := by
  rw [State.afterPush_sp]
  exact s.mem.read_write_same _ _

theorem State.afterPush_readMem_other {addr : Byte} (h : addr ≠ s.sp - 1) :
    (s.afterPush a).readMem addr = s.readMem addr :=
  s.mem.read_write_other _ fun heq => h (BitVec.eq_of_toNat_eq heq)

end afterPush

section afterPop
variable {s : State} {a r : Reg}

theorem State.loadTop_sp (h : a ≠ 7) : (s.loadTop a).sp = s.sp := by
  rw [State.loadTop, State.sp_writeReg, if_neg h]

theorem State.loadTop_seven_sp : (s.loadTop 7).sp = s.readMem s.sp := s.reg_writeReg_same 7 _

theorem State.afterPop_sp : (s.afterPop a).sp = (s.loadTop a).sp + 1 := State.sp_setSp _ _

theorem State.afterPop_reg_same (h : a ≠ 7) : (s.afterPop a).reg a = s.readMem s.sp :=
  ((s.loadTop a).reg_setSp_other _ h).trans (s.reg_writeReg_same a _)

theorem State.afterPop_reg_other (h : r ≠ 7) (hne : r ≠ a) : (s.afterPop a).reg r = s.reg r :=
  ((s.loadTop a).reg_setSp_other _ h).trans (by rw [State.loadTop, State.reg_writeReg, if_neg hne.symm])

theorem State.afterPop_pc (h : s.pc.toNat + 2 ≤ 255) : (s.afterPop a).pc.toNat = s.pc.toNat + 2 := trunc8_toNat h

end afterPop

-- Completion

theorem toNat_sub_one {x : Byte} (h : x ≠ 0x00) : (x - 1).toNat + 1 = x.toNat := by bv_omega

theorem toNat_add_one {x : Byte} (h : x ≠ 0xFF) : (x + 1).toNat = x.toNat + 1 := by bv_omega

/-- Settles O48: PUSH and POP by the states they complete in. -/
theorem stackInstructionsComplete : Obligations.StackInstructionsComplete := by
  unfold Obligations.StackInstructionsComplete
  refine fun a s hpc => ⟨fun ha hsp => ?push, fun hne hsp => ?pop, fun hsp => ?popSeven⟩
  case push =>
    refine ⟨_, execPush_of_written ha hsp hpc, ?_, s.afterPush_readMem_sp a, s.afterPush_reg_other a,
      State.afterPush_pc a hpc, rfl⟩
    rw [← State.sp_eq, State.afterPush_sp]
    exact toNat_sub_one hsp
  case pop =>
    rw [← State.sp_eq, ← State.loadTop_sp hne] at hsp
    refine ⟨_, execPop_of_ne hsp hpc, State.afterPop_reg_same hne, ?_, State.afterPop_pc hpc, rfl⟩
    rw [← State.sp_eq, State.afterPop_sp, toNat_add_one hsp, State.loadTop_sp hne]
    rfl
  case popSeven =>
    have htop : (s.loadTop 7).sp ≠ 0xFF := State.loadTop_seven_sp ▸ hsp
    refine ⟨_, execPop_of_ne htop hpc, ?_, State.afterPop_pc hpc, rfl⟩
    rw [← State.sp_eq, State.afterPop_sp, toNat_add_one htop, State.loadTop_seven_sp]
    rfl

-- PUSH, then POP

/-- Loading what was just pushed changes nothing: the register holds that byte, and its mark is set. -/
theorem State.loadTop_afterPush {s : State} {a : Reg} (ha : s.unwritten a = false) :
    (s.afterPush a).loadTop a = s.afterPush a := by
  rw [State.loadTop, State.afterPush_readMem_sp]
  exact State.writeReg_reg ((s.afterPush_unwritten a a).trans ha)

/-- A POP after a PUSH of the same register undoes it but for the byte pushed and `pc` (R103). -/
theorem State.afterPop_afterPush {s : State} {a : Reg} (ha : s.unwritten a = false) (hpc : s.pc.toNat + 2 ≤ 255) :
    (s.afterPush a).afterPop a =
      { s with mem := (s.afterPush a).mem, pc := trunc8 (s.pc.toNat + 4) } := by
  have hregs : (s.regs.set 7 (s.sp - 1)).set 7 s.sp = s.regs := by
    rw [Vector.set_set]
    exact Vector.set_getElem_self (i := 7) (by decide)
  rw [State.afterPop, State.loadTop_afterPush ha, State.afterPush_sp, sub_add_cancel, State.afterPush_pc a hpc,
    State.setSp_eq, State.afterPush, State.pushAt_eq]
  simp only [State.setPc, hregs]

theorem execPop_afterPush {s : State} {a : Reg} (ha : s.unwritten a = false) (hsp : s.sp ≠ 0x00)
    (hpc : s.pc.toNat + 4 ≤ 255) :
    exec (.pop (regByte a)) (s.afterPush a) =
      .next { s with mem := (s.afterPush a).mem, pc := trunc8 (s.pc.toNat + 4) } := by
  have hpush := State.afterPush_pc (s := s) a (by omega)
  have htop : ((s.afterPush a).loadTop a).sp ≠ 0xFF := by
    rw [State.loadTop_afterPush ha, State.afterPush_sp]
    bv_omega
  rw [execPop_of_ne htop (by omega), State.afterPop_afterPush ha (by omega)]

-- Two PUSHes, then two POPs

/-- After two PUSHes the second byte is at SP and the first above it. -/
theorem State.afterPush_afterPush {a b : Reg} (s : State) (ha : a ≠ 7) (hb : b ≠ 7) :
    ((s.afterPush a).afterPush b).sp = s.sp - 1 - 1 ∧
    ((s.afterPush a).afterPush b).readMem (s.sp - 1 - 1) = s.reg b ∧
    ((s.afterPush a).afterPush b).readMem (s.sp - 1) = s.reg a := by
  have hsp : ((s.afterPush a).afterPush b).sp = s.sp - 1 - 1 := by rw [State.afterPush_sp, State.afterPush_sp]
  refine ⟨hsp, ?_, ?_⟩
  · rw [← hsp, State.afterPush_readMem_sp, State.afterPush_reg_other _ _ hb, State.afterPush_reg_other _ _ hb]
  · have hother : s.sp - 1 ≠ (s.afterPush a).sp - 1 := by
      rw [State.afterPush_sp]
      bv_omega
    rw [State.afterPush_readMem_other _ _ hother, ← s.afterPush_sp a, State.afterPush_readMem_sp,
      State.afterPush_reg_other _ _ ha]

/-- Two POPs take the byte at SP, then the byte above it. -/
theorem State.afterPop_afterPop {c d : Reg} (s : State) (hc : c ≠ 7) (hd : d ≠ 7) (hcd : c ≠ d) :
    ((s.afterPop c).afterPop d).reg c = s.readMem s.sp ∧
    ((s.afterPop c).afterPop d).reg d = s.readMem (s.sp + 1) ∧
    ((s.afterPop c).afterPop d).sp = s.sp + 1 + 1 := by
  have hsp : (s.afterPop c).sp = s.sp + 1 := by rw [State.afterPop_sp, State.loadTop_sp hc]
  refine ⟨?_, ?_, ?_⟩
  · rw [State.afterPop_reg_other hc hcd, State.afterPop_reg_same hc]
  · rw [State.afterPop_reg_same hd, hsp]
    rfl
  · rw [State.afterPop_sp, State.loadTop_sp hd, hsp]

theorem execPush_twice {a b : Reg} {s : State} (ha : s.unwritten a = false) (hb : s.unwritten b = false)
    (hsp : 2 ≤ s.sp.toNat) (hpc : s.pc.toNat + 4 ≤ 255) :
    exec (.push (regByte a)) s = .next (s.afterPush a) ∧
    exec (.push (regByte b)) (s.afterPush a) = .next ((s.afterPush a).afterPush b) := by
  have hpush := State.afterPush_pc (s := s) a (by omega)
  refine ⟨execPush_of_written ha (by bv_omega) (by omega),
    execPush_of_written ((s.afterPush_unwritten a b).trans hb) ?_ (by omega)⟩
  rw [State.afterPush_sp]
  bv_omega

theorem execPop_twice {c d : Reg} {s : State} (hc : c ≠ 7) (hd : d ≠ 7) (hsp : s.sp.toNat + 2 ≤ 255)
    (hpc : s.pc.toNat + 4 ≤ 255) :
    exec (.pop (regByte c)) s = .next (s.afterPop c) ∧
    exec (.pop (regByte d)) (s.afterPop c) = .next ((s.afterPop c).afterPop d) := by
  have hpop := State.afterPop_pc (s := s) (a := c) (by omega)
  refine ⟨execPop_of_ne ?_ (by omega), execPop_of_ne ?_ (by omega)⟩
  · rw [State.loadTop_sp hc]
    bv_omega
  · rw [State.loadTop_sp hd, State.afterPop_sp, State.loadTop_sp hc]
    bv_omega

/-- Settles O51: a POP after a PUSH of the same register undoes it but for the byte pushed and `pc`; two PUSHes leave
the second byte at SP, where the first POP takes it. -/
theorem pushThenPopRestores : Obligations.PushThenPopRestores := by
  unfold Obligations.PushThenPopRestores
  refine ⟨fun a s hrun ha hsp hpc => ?one, fun a b c d s ha hb hc hd hcd hrun wa wb hsp hpc => ?two⟩
  case one =>
    refine ⟨_, _, execPush_of_written ha hsp (by omega), execPop_afterPush ha hsp hpc, hrun, rfl, rfl,
      fun hne => ⟨rfl, ?_⟩, fun _ => s.mem.read_write_other _, trunc8_toNat hpc⟩
    exact (s.mem.read_write_same _ _).trans (s.reg_setSp_other _ hne)
  case two =>
    rw [← State.sp_eq] at hsp
    obtain ⟨husp, hsecond, hfirst⟩ := s.afterPush_afterPush ha hb
    obtain ⟨hwc, hwd, hwsp⟩ := ((s.afterPush a).afterPush b).afterPop_afterPop hc hd hcd
    have htpc := State.afterPush_pc (s := s) a (by omega)
    have hupc := State.afterPush_pc (s := s.afterPush a) b (by omega)
    obtain ⟨hpushA, hpushB⟩ := execPush_twice wa wb hsp (by omega)
    obtain ⟨hpopC, hpopD⟩ :=
      execPop_twice (s := (s.afterPush a).afterPush b) hc hd (by rw [husp]; bv_omega) (by omega)
    rw [husp] at hwc
    rw [husp, sub_add_cancel] at hwd
    rw [husp, sub_add_cancel, sub_add_cancel] at hwsp
    exact ⟨_, _, _, _, hpushA, hpushB, hpopC, hpopD, hwc.trans hsecond, hwd.trans hfirst, hwsp, hrun⟩

end Sys2Proof.Machine

/-! Proofs of the statements of spec/43_control_flow.md. An instruction that completes did not stop, so its next `pc` is
read off the state it completed in; a completed CALL comes to `State.afterCall`, from which a RET takes the return address
(R115). -/

namespace Sys2Proof.Machine

-- Whole cycles

/-- Settles O40: the handler's answer in the fault order of R145, put under the operand fetch of format R. -/
theorem jmpCycle : Obligations.JmpCycle := by
  unfold Obligations.JmpCycle
  intro s hready hop
  refine step_formatR (mk := .jmp) hready (fun _ => by rw [hop]; rfl) (fun u x => execJmp_illegal x u) fun u a => ?_
  simp only [exec, execJmp_eq, next_ite]
  rfl

/-- Settles O41: as for JMP, with FLV before E and the register read on the taken path alone. -/
theorem jeqCycle : Obligations.JeqCycle := by
  unfold Obligations.JeqCycle
  intro s hready hop
  refine step_formatR (mk := .jeq) hready (fun _ => by rw [hop]; rfl) (fun u x => execJeq_illegal x u) fun u a => ?_
  simp only [exec, execJeq_eq, next_ite]
  rfl

/-- Settles O42: as for JEQ, taken on the other value of E. -/
theorem jneCycle : Obligations.JneCycle := by
  unfold Obligations.JneCycle
  intro s hready hop
  refine step_formatR (mk := .jne) hready (fun _ => by rw [hop]; rfl) (fun u x => execJne_illegal x u) fun u a => ?_
  simp only [exec, execJne_eq, next_ite]
  rfl

/-- Settles O43: as for PUSH, with the return address pushed and the register, read after the decrement, as target. -/
theorem callCycle : Obligations.CallCycle := by
  unfold Obligations.CallCycle
  intro s hready hop
  refine step_formatR (mk := .call) hready (fun _ => by rw [hop]; rfl) (fun u x => execCall_illegal x u) fun u a => ?_
  simp only [exec, execCall_eq, State.pushAt_eq, next_ite]
  rfl

-- The next `pc` of a completed instruction

/-- A handler that leaves the machine running completed: a fault would have left it faulted (R143). -/
theorem finish_completed {s t : State} {r : Except Stop State} (h : finish s r = .next t) (hrun : t.run = .running) :
    r = .ok t := by
  rcases finish_next h with hok | ⟨f, -, rfl⟩
  · exact hok
  · exact nomatch hrun

/-- The same of an instruction whose completion is one case and a listed fault the other. -/
theorem completed_of_running {P : Prop} {s t : State} {operands : List Byte} {codes : List (BitVec 4)}
    (h : P ∨ tookFault s operands codes t) (hrun : t.run = .running) : P :=
  h.resolve_right fun hfault => not_running_of_tookFault hfault hrun

section nextPc
variable {a : Reg} {x y : Byte} {s t : State}

theorem aluAndAdvance_pc {tag : AluTag} (h1 : tag ≠ .not) (h2 : tag ≠ .unsupported)
    (h : finish s (aluAndAdvance tag x y s) = .next t) (hrun : t.run = .running) : t.pc.toNat = s.pc.toNat + 3 := by
  obtain ⟨_, _, _, _, -, -, -, -, -, hp, rfl⟩ := aluAndAdvance_ok h1 h2 (finish_completed h hrun)
  exact hp

theorem execLdi_pc (h : exec (.ldi x y) s = .next t) (hrun : t.run = .running) : t.pc.toNat = s.pc.toNat + 3 := by
  obtain ⟨_, _, -, hp, rfl⟩ := completed_of_running (execLdi_cases h) hrun
  exact hp

theorem execPrn_pc (h : exec (.prn x) s = .next t) (hrun : t.run = .running) : t.pc.toNat = s.pc.toNat + 2 := by
  obtain ⟨_, _, -, -, hp, rfl⟩ := completed_of_running (execPrn_cases h) hrun
  exact hp

theorem execPush_pc (h : exec (.push x) s = .next t) (hrun : t.run = .running) : t.pc.toNat = s.pc.toNat + 2 := by
  obtain ⟨_, _, -, -, -, hp, rfl⟩ := completed_of_running (execPush_cases h) hrun
  exact hp

theorem execPop_pc (h : exec (.pop x) s = .next t) (hrun : t.run = .running) : t.pc.toNat = s.pc.toNat + 2 := by
  obtain ⟨_, _, -, -, hp, rfl⟩ := completed_of_running (execPop_cases h) hrun
  exact hp

theorem execJmp_pc (h : exec (.jmp (regByte a)) s = .next t) (hrun : t.run = .running) : t.pc = s.reg a := by
  obtain ⟨_, ha, -, rfl⟩ := completed_of_running (execJmp_cases h) hrun
  rw [regByte_inj ha, State.setPc_pc]

/-- A completed conditional jump went to its target or advanced, as E says. -/
theorem jumpIf_pc {taken : Bool → Bool} (h : finish s (jumpIf taken (regByte a) s) = .next t)
    (hrun : t.run = .running) :
    if taken s.flagE = true then t.pc = s.reg a else t.pc.toNat = s.pc.toNat + 2 := by
  obtain ⟨_, ha, -, ⟨htaken, -, rfl⟩ | ⟨htaken, _, hp, rfl⟩⟩ := completed_of_running (jumpIf_cases h) hrun
  · rw [if_pos htaken, regByte_inj ha, State.setPc_pc]
  · rw [htaken]
    exact hp

theorem execJeq_pc (h : exec (.jeq (regByte a)) s = .next t) (hrun : t.run = .running) :
    if s.fl.getLsbD 0 = true then t.pc = s.reg a else t.pc.toNat = s.pc.toNat + 2 :=
  jumpIf_pc h hrun

theorem execJne_pc (h : exec (.jne (regByte a)) s = .next t) (hrun : t.run = .running) :
    if s.fl.getLsbD 0 = false then t.pc = s.reg a else t.pc.toNat = s.pc.toNat + 2 := by
  simpa only [State.flagE, Bool.not_eq_true'] using jumpIf_pc h hrun

theorem execCall_pc (h : exec (.call (regByte a)) s = .next t) (hrun : t.run = .running) :
    t.pc = if a = 7 then s.reg 7 - 1 else s.reg a := by
  rw [execCall_completed h hrun, State.setPc_pc, State.sp_eq]

theorem execRet_pc (h : exec .ret s = .next t) (hrun : t.run = .running) : t.pc = s.mem.read (s.reg 7).toNat := by
  obtain ⟨-, rfl⟩ := completed_of_running (execRet_cases h) hrun
  rfl

theorem execHlt_pc (h : exec .hlt s = .next t) : t.pc = s.pc := by
  rw [execHlt_cases h]

end nextPc

/-- Settles O20: the rows of R110, each by what its handler did when it completed. -/
theorem nextPcIsAsTheTableSays : Obligations.NextPcIsAsTheTableSays := by
  unfold Obligations.NextPcIsAsTheTableSays
  intro a b x y s t _ hrun
  exact ⟨fun h => aluAndAdvance_pc (tag := .add) (by decide) (by decide) h hrun,
    execAnd_pc,
    fun h => execCall_pc h hrun,
    fun h => aluAndAdvance_pc (tag := .cmp) (by decide) (by decide) h hrun,
    execHlt_pc,
    fun h => execJeq_pc h hrun,
    fun h => execJne_pc h hrun,
    fun h => execJmp_pc h hrun,
    fun h => execLdi_pc h hrun,
    fun h => aluAndAdvance_pc (tag := .mul) (by decide) (by decide) h hrun,
    fun h => execPop_pc h hrun,
    fun h => execPrn_pc h hrun,
    fun h => execPush_pc h hrun,
    fun h => execRet_pc h hrun,
    execSt_pc⟩

/-- Settles O52: E is 1 or 0, and where the one jump is taken on it the other advances. -/
theorem exactlyOneOfJeqAndJneIsTaken : Obligations.ExactlyOneOfJeqAndJneIsTaken := by
  unfold Obligations.ExactlyOneOfJeqAndJneIsTaken
  intro a s t u _ _ hjeq hjne ht hu
  have htpc := execJeq_pc hjeq ht
  have hupc := execJne_pc hjne hu
  cases he : s.fl.getLsbD 0 with
  | true =>
    rw [he] at htpc hupc
    exact .inl ⟨htpc, hupc⟩
  | false =>
    rw [he] at htpc hupc
    exact .inr ⟨hupc, htpc⟩

-- Completion of the jumps

theorem execJmp_of_written {a : Reg} {s : State} (ha : s.unwritten a = false) :
    exec (.jmp (regByte a)) s = .next (s.setPc (s.reg a)) := by
  rw [exec, execJmp_eq, if_neg (by simp [ha])]

section conditionalJump
variable {taken : Bool → Bool} {a : Reg} {s : State}

theorem jumpIf_of_taken (hflv : s.flv = true) (htaken : taken s.flagE = true) (ha : s.unwritten a = false) :
    finish s (jumpIf taken (regByte a) s) = .next (s.setPc (s.reg a)) := by
  simp only [jumpIf, regOperand_regByte, readE_of_set hflv, bind_ok, htaken, if_true, jumpTo, readReg_of_written ha,
    finish_ok]

theorem jumpIf_of_notTaken (hflv : s.flv = true) (htaken : taken s.flagE = false) (hpc : s.pc.toNat + 2 ≤ 255) :
    finish s (jumpIf taken (regByte a) s) = .next (s.setPc (trunc8 (s.pc.toNat + 2))) := by
  simp only [jumpIf, regOperand_regByte, readE_of_set hflv, bind_ok, htaken, Bool.false_eq_true, if_false,
    pcPlus_of_le hpc, finish_ok]

end conditionalJump

/-- Settles O49: JEQ and JNE are one handler, which goes to the register's value where its condition on E holds and
advances where it does not. -/
theorem jumpsComplete : Obligations.JumpsComplete := by
  unfold Obligations.JumpsComplete
  intro a s
  refine ⟨fun ha => ⟨_, execJmp_of_written ha, rfl, rfl⟩, fun hflv he ha => ?jeqTaken, fun hflv he hpc => ?jeqNot,
    fun hflv he ha => ?jneTaken, fun hflv he hpc => ?jneNot⟩
  case jeqTaken => exact ⟨_, jumpIf_of_taken hflv he ha, rfl, rfl⟩
  case jeqNot => exact ⟨_, jumpIf_of_notTaken hflv he hpc, trunc8_toNat hpc, rfl⟩
  case jneTaken => exact ⟨_, jumpIf_of_taken hflv (congrArg (!·) he) ha, rfl, rfl⟩
  case jneNot => exact ⟨_, jumpIf_of_notTaken hflv (congrArg (!·) he) hpc, trunc8_toNat hpc, rfl⟩

-- CALL and RET

/-- The state after a CALL through the register: the return address pushed, the target read after the decrement (R114). -/
def State.afterCall (s : State) (a : Reg) : State :=
  (s.pushAt (s.sp - 1) (trunc8 (s.pc.toNat + 2))).setPc ((s.setSp (s.sp - 1)).reg a)

/-- The state after a RET: `pc` from the cell at SP, then SP incremented (R115). -/
def State.afterRet (s : State) : State := (s.setSp (s.sp + 1)).setPc (s.readMem s.sp)

theorem execCall_of_written {a : Reg} {s : State} (ha : s.unwritten a = false) (hsp : s.sp ≠ 0x00)
    (hpc : s.pc.toNat + 2 ≤ 255) : exec (.call (regByte a)) s = .next (s.afterCall a) := by
  simp only [exec, execCall, regOperand_regByte, readReg_of_written ha, stackDown_of_ne hsp, pcPlus_of_le hpc, bind_ok,
    finish_ok, State.afterCall]

theorem execRet_of_ne {s : State} (hsp : s.sp ≠ 0xFF) : exec .ret s = .next s.afterRet := by
  simp only [exec, execRet, stackUp_of_ne hsp, bind_ok, finish_ok, State.afterRet]

/-- A completed CALL stayed within its bounds and left such a state. -/
theorem exists_afterCall_of_execCall {x : Byte} {s t : State} (h : exec (.call x) s = .next t)
    (hrun : t.run = .running) : s.sp ≠ 0x00 ∧ s.pc.toNat + 2 ≤ 255 ∧ ∃ a, t = s.afterCall a := by
  obtain ⟨a, p, -, -, hsp, hp, rfl⟩ := completed_of_running (execCall_cases h) hrun
  have hret : trunc8 (s.pc.toNat + 2) = p := by simp [trunc8, ← hp]
  exact ⟨hsp, by omega, a, by rw [State.afterCall, hret]⟩

section afterCall
variable (s : State) (a : Reg)

theorem State.afterCall_sp : (s.afterCall a).sp = s.sp - 1 := s.sp_setSp (s.sp - 1)

theorem State.afterCall_readMem_sp : (s.afterCall a).readMem (s.afterCall a).sp = trunc8 (s.pc.toNat + 2) := by
  rw [State.afterCall_sp]
  exact s.mem.read_write_same _ _

/-- The target is what the register holds afterwards, SP included (R114). -/
theorem State.afterCall_pc : (s.afterCall a).pc = (s.afterCall a).reg a := rfl

theorem State.afterCall_reg_other {r : Reg} (h : r ≠ 7) : (s.afterCall a).reg r = s.reg r := s.reg_setSp_other _ h

theorem State.afterRet_sp : s.afterRet.sp = s.sp + 1 := s.sp_setSp (s.sp + 1)

end afterCall

/-- Settles O50: CALL and RET by the states they complete in. -/
theorem callRetAndHltComplete : Obligations.CallRetAndHltComplete := by
  unfold Obligations.CallRetAndHltComplete
  refine fun a s => ⟨fun ha hsp hpc => ?call, fun hsp => ?ret, rfl⟩
  case call =>
    refine ⟨_, execCall_of_written ha hsp hpc, ?_, ?_, s.afterCall_pc a, s.afterCall_reg_other a, rfl⟩
    · rw [← State.sp_eq, State.afterCall_sp]
      exact toNat_sub_one hsp
    · rw [← State.sp_eq, ← State.readMem_eq, State.afterCall_readMem_sp, trunc8_toNat hpc]
  case ret =>
    refine ⟨_, execRet_of_ne hsp, rfl, ?_, rfl⟩
    rw [← State.sp_eq, State.afterRet_sp]
    exact toNat_add_one hsp

theorem step_ret {s : State} (h : s.ready) (hop : s.byteAt 0 = 0x11) : step s = exec .ret s.beginCycle :=
  step_formatZ h fun _ => by rw [hop]; rfl

/-- Settles O44: the handler's answer under a fetch without operands; and a RET with SP and the pushed cell as a CALL left
them takes the return address and puts SP back. -/
theorem retCycle : Obligations.RetCycle := by
  unfold Obligations.RetCycle
  refine ⟨fun s hready hop => ?cycle, fun x s t u _ h hrun hsp hcell => ?pair⟩
  case cycle =>
    rw [step_ret hready hop]
    simp only [exec, execRet_eq, State.setSp_eq, next_ite]
    rfl
  case pair =>
    obtain ⟨hne, hpc, a, rfl⟩ := exists_afterCall_of_execCall h hrun
    have husp : u.sp = s.sp - 1 := hsp.trans (s.afterCall_sp a)
    have hreturn : u.readMem u.sp = trunc8 (s.pc.toNat + 2) := by
      rw [State.readMem_eq, State.sp_eq, hsp]
      exact hcell.trans (s.afterCall_readMem_sp a)
    refine ⟨_, execRet_of_ne (by rw [husp]; bv_omega), ?_, ?_, rfl⟩
    · rw [State.afterRet, State.setPc_pc, hreturn, trunc8_toNat hpc]
    · rw [← State.sp_eq, State.afterRet_sp, husp, sub_add_cancel, State.sp_eq]

end Sys2Proof.Machine

/-! Proofs of the statements of spec/44_halt_and_run_loop.md. An encoding standing at `pc` is the head of the fetch window,
so it decodes to its instruction (R51, R121). HLT leaves the state it ran in, from which `run_of_spinning` goes on (R120). -/

namespace Sys2Proof.Machine

-- The fetch of an encoding

theorem encode_length_le (i : Instr) : (encode i).length ≤ 3 := by
  cases i <;> simp [encode]

theorem fetchWindow_getElem? {s : State} {k : Nat} (hk : k < 3) (hpc : s.pc.toNat + k ≤ 255) :
    s.fetchWindow[k]? = some (s.byteAt k) := by
  rw [fetchWindow_eq]
  match k with
  | 0 => split_ifs <;> rfl
  | 1 => rw [if_pos hpc]; split <;> rfl
  | 2 => rw [if_pos hpc]; rfl

/-- At most three bytes that stand at `pc` are the head of what the fetch offers the decoder (R51). -/
theorem prefix_fetchWindow {s : State} {bytes : List Byte} (hlength : bytes.length ≤ 3)
    (hbytes : ∀ k, (h : k < bytes.length) → s.pc.toNat + k ≤ 255 ∧ s.byteAt k = bytes[k]) :
    bytes <+: s.fetchWindow := by
  refine List.prefix_iff_getElem?.mpr fun k hk => ?_
  obtain ⟨hpc, hbyte⟩ := hbytes k hk
  rw [fetchWindow_getElem? (by omega) hpc, hbyte]

theorem step_of_encode {s : State} {i : Instr} (hready : s.ready) (hencodable : i.encodable s.params.op84 = true)
    (hbytes : ∀ k, (h : k < (encode i).length) → s.pc.toNat + k ≤ 255 ∧ s.byteAt k = (encode i)[k]) :
    step s = exec i s.beginCycle := by
  obtain ⟨rest, hwindow⟩ := prefix_fetchWindow (encode_length_le i) hbytes
  exact step_of_decode hready (hwindow ▸ decode_encode rest hencodable)

/-- Settles O7: the step of bytes that decode, and the bytes of an encoding decode. -/
theorem stepRunsDecodedInstruction : Obligations.StepRunsDecodedInstruction := by
  unfold Obligations.StepRunsDecodedInstruction
  exact ⟨fun _ _ _ => step_of_decode, fun _ _ => step_of_encode⟩

-- HLT

theorem exec_hlt (s : State) : exec .hlt s = .next s := rfl

theorem step_hlt {s : State} (h : s.ready) (hop : s.byteAt 0 = 0x01) : step s = .next s.beginCycle :=
  (step_formatZ h fun _ => by rw [hop]; rfl).trans (exec_hlt s.beginCycle)

/-- After one HLT the output channel is silent already, and every cycle fetches the same HLT again. -/
theorem step_hlt_spins {s : State} (hrun : s.run = .running) (hop : s.byteAt 0 = 0x01) {inputs : List InputPins}
    (hquiet : unstopped inputs) :
    step (s.beginCycle.withInputs inputs) = .next (s.beginCycle.withInputs inputs.tail) :=
  step_hlt (withInputs_ready (s := s.beginCycle) hrun hquiet) hop

/-- Settles O45: one HLT leaves a spinning state, in which a run only uses up its inputs. -/
theorem hltSpins : Obligations.HltSpins := by
  unfold Obligations.HltSpins
  refine ⟨exec_hlt, fun _ => step_hlt, fun n s hrun hop hquiet => ?_⟩
  have hstep : step s = .next s.beginCycle := step_hlt (ready_of_quiet hrun hquiet) hop
  exact run_succ_of_spinning n hquiet hstep rfl fun _ => step_hlt_spins hrun hop

end Sys2Proof.Machine

/-! Proofs of the statements of spec/60_exceptions.md. No way an instruction can end stops the model, and a fault is a next
state that differs in RUN, FCAUSE and FINFO (R143), whether the fetch raised it or a handler. Abort before cancel is the
cause of a stopped cycle (R146); past the stop requests only a handler or a fetch fault is left, and neither halts. -/

namespace Sys2Proof.Machine

-- Stop requests

theorem InputPins.stopCause_of_abort {p : InputPins} (habort : p.abort = true) : p.stopCause = .abort := if_pos habort

theorem InputPins.stopCause_of_not_abort {p : InputPins} (habort : p.abort = false) : p.stopCause = .cancel :=
  if_neg (by simp [habort])

theorem step_stop {s : State} (hrst : s.pins.rst = false) (hrun : s.run = .running)
    (hstop : s.pins.abort = true ∨ s.pins.cancel = true) : step s = .next (s.beginCycle.halt s.pins.stopCause) :=
  step_settle (planCycle_stop hrst hrun hstop)

/-- A handler does not halt the machine (R123: only a stop request does). -/
theorem exec_notHalted {i : Instr} {s t : State} (h : exec i s = .next t) (hrun : s.run = .running) :
    t.run ≠ .halted ∧ t.hcause = s.hcause := by
  rcases exec_completes_or_faults h with ⟨hkept, hcause⟩ | ⟨f, rfl, -⟩
  · exact ⟨by simp [hkept, hrun], hcause⟩
  · exact ⟨by simp, rfl⟩

theorem step_notHalted {s t : State} (hready : s.ready) (h : step s = .next t) :
    t.run ≠ .halted ∧ t.hcause = s.hcause := by
  rcases step_ready hready with ⟨i, rest, -, hstep⟩ | ⟨f, -, hstep⟩
  · exact exec_notHalted (s := s.beginCycle) (hstep ▸ h) hready.1
  · rw [hstep] at h
    cases h
    exact ⟨by simp, rfl⟩

/-- Settles O10: a stop request halts with the cause of `InputPins.stopCause`; without one the machine is ready. -/
theorem stopRequestsPrecedeTheInstruction : Obligations.StopRequestsPrecedeTheInstruction := by
  unfold Obligations.StopRequestsPrecedeTheInstruction
  refine fun s hrun hrst => ⟨fun habort => ?abort, fun habort hcancel => ?cancel, fun habort hcancel => ?ready⟩
  case abort =>
    rw [step_stop hrst hrun (.inl habort), InputPins.stopCause_of_abort habort]
    rfl
  case cancel =>
    rw [step_stop hrst hrun (.inr hcancel), InputPins.stopCause_of_not_abort habort]
    rfl
  case ready =>
    have hready : s.ready := ⟨hrun, hrst, habort, hcancel⟩
    exact ⟨fun _ _ => step_of_decode hready, fun _ => step_notHalted hready⟩

-- The model never stops

/-- The outcome is a next state: neither a fault nor a refusal of the model. -/
def answersNext (o : Host.Outcome State Fault Refusal) : Prop := ∃ t, o = .next t

theorem answersNext_next (t : State) : answersNext (.next t) := ⟨t, rfl⟩

/-- Every way an instruction can end is a next state; the second outcome of the relation plays no part. -/
theorem answersNext_endings (i : Instr) (s : State) : KeepsRelation (fun o _ => answersNext o) i s s where
  fault _ := answersNext_next _
  nothing := answersNext_next _
  jump _ := answersNext_next _
  register _ _ _ := answersNext_next _
  registerOnly _ _ := answersNext_next _
  compare _ _ _ _ := answersNext_next _
  store _ _ := answersNext_next _
  output _ _ := answersNext_next _
  push _ _ _ := answersNext_next _
  pop _ _ _ _ := answersNext_next _
  ret _ _ := answersNext_next _

theorem exec_answersNext (i : Instr) (s : State) : answersNext (exec i s) :=
  exec_related (SameReads.refl i s) (answersNext_endings i s)

theorem step_answersNext (s : State) : answersNext (step s) := by
  cases hplan : planCycle s with
  | settle t => exact ⟨t, step_settle hplan⟩
  | execute i t =>
    rw [step_execute hplan]
    exact exec_answersNext i t

/-- Settles O15: a cycle settles in a next state or is one handler, and every handler ends in a next state. -/
theorem everyStepAnswersNext : Obligations.EveryStepAnswersNext := by
  unfold Obligations.EveryStepAnswersNext
  exact ⟨step_answersNext, exec_answersNext⟩

-- Faults

/-- Settles O18: of the cases of a step, those that lead from running to faulted raise one fault on the state at the
beginning of the cycle. -/
theorem faultsArePrecise : Obligations.FaultsArePrecise := by
  unfold Obligations.FaultsArePrecise
  intro s t hrun h hfaulted
  cases step_cases h with
  | reset => cases hfaulted
  | idle _ hidle => exact absurd (hrun.symm.trans hidle) (by decide)
  | stopped => cases hfaulted
  | fetchFaulted f => exact ⟨f, rfl⟩
  | executed i rest hready _ hexec =>
    obtain ⟨f, rfl, -⟩ := exec_tookFault hexec hready.1 hfaulted
    exact ⟨f, rfl⟩
  | ended => exact absurd (hrun.symm.trans hfaulted) (by decide)

/-- Settles O19: a handler that ends faulted took a fault listed for it, under the setting that the fault needs. -/
theorem handlersRaiseOnlyTheirFaults : Obligations.HandlersRaiseOnlyTheirFaults := by
  unfold Obligations.HandlersRaiseOnlyTheirFaults
  intro i s t hrun h hfaulted
  obtain ⟨f, rfl, hlisted, -, hunwritten, hoverflow⟩ := exec_tookFault h hrun hfaulted
  exact ⟨hlisted, hunwritten, hoverflow⟩

/-- Settles O11: past the end of a run a cycle settles in the state it began with. -/
theorem faultedAndHaltedAreTerminal : Obligations.FaultedAndHaltedAreTerminal := by
  unfold Obligations.FaultedAndHaltedAreTerminal
  exact fun s hended hrst => step_settle (planCycle_ended hrst hended.symm)

end Sys2Proof.Machine

/-! Proof of the statement of spec/70_reset_and_hazards.md: a cycle with `rst` settles in the reset state, whatever the
state and the other inputs. -/

namespace Sys2Proof.Machine

/-- A cycle with `rst` leaves the reset state under the setting in force; of the old state only the setting and the
inputs still to come are left (R26, R170). -/
theorem step_reset {s : State} (hrst : s.pins.rst = true) :
    step s = .next { State.resetWith s.params with inputs := s.inputs.tail } :=
  step_settle (planCycle_reset hrst)

/-- Settles O9: the fields are those of `State.resetWith`, which the step leaves but for the inputs. -/
theorem resetWorksFromAnyState : Obligations.ResetWorksFromAnyState := by
  unfold Obligations.ResetWorksFromAnyState
  exact fun s hrst => ⟨_, step_reset hrst, rfl, rfl, fun _ => rfl, rfl, rfl, rfl,
    fun _ _ => resetWith_marked (p := s.params), fun _ _ => resetWith_reg (p := s.params)⟩

end Sys2Proof.Machine
